-- ==== Sys2Proof/Word.lean ====
section
/-! DEFINITION. The word types of the machine (10_state.md, 00_scope.md R4, R5): every value is an unsigned number of a fixed
width, and bit 0 is the least significant bit. -/

namespace Sys2Proof

/-- An 8-bit value: a general register, a memory cell, a timer, an immediate `kk`. -/
abbrev Byte := BitVec 8

/-- A 16-bit value: an instruction word, `I`, `PC`, a call-stack slot. -/
abbrev Word := BitVec 16

/-- A 4-bit field of an instruction word ("nibble" of the glossary, 00_scope.md section 6). -/
abbrev Nibble := BitVec 4

/-- The number of a general register, 0 for V0 to 15 for VF (R21). Every index is valid (R73). -/
abbrev RegIdx := Fin 16

/-- The number of a key of the keypad, 0x0 to 0xF (R27). -/
abbrev KeyIdx := Fin 16

/-- A word from its high byte and its low byte, `hi ++ lo` (R4). -/
def wordOfBytes (hi lo : Byte) : Word := (hi ++ lo).cast (by decide)

/-- Bits 15:8 of a word (R4). -/
def hiByte (w : Word) : Byte := w.extractLsb' 8 8

/-- Bits 7:0 of a word (R4). -/
def loByte (w : Word) : Byte := w.extractLsb' 0 8

end Sys2Proof
end

