-- ==== Sys2Proof/Syntax.lean ====
section
/-! DEFINITION. The instructions: one constructor for each row of the opcode map (30_encoding.md R85, spec/opcode_table.json), in
the order of the table, and the names under which the decoder rejects what is no instruction (R80, R81). -/

namespace Sys2Proof

/-- The 34 instructions (R85, R86). The fields are those of the row's pattern (R71): `x`, `y` register numbers, `kk` an 8-bit
immediate, `nnn` a 12-bit address, `n` a 4-bit count. A nibble that the decoder ignores and the pattern does not name (R79) is no
field; the ignored `y` of SHR and SHL and the ignored `x` of ST_REGS and LD_REGS are fields, because the pattern names them and an
assembler emits "whatever the programmer wrote". -/
inductive Instr where
  | cls                            -- 00E0
  | ret                            -- 00EE
  | jp (nnn : BitVec 12)           -- 1nnn
  | call (nnn : BitVec 12)         -- 2nnn
  | seImm (x : RegIdx) (kk : Byte) -- 3xkk
  | sneImm (x : RegIdx) (kk : Byte) -- 4xkk
  | seReg (x y : RegIdx)           -- 5xy0
  | ldImm (x : RegIdx) (kk : Byte) -- 6xkk
  | addImm (x : RegIdx) (kk : Byte) -- 7xkk
  | ldReg (x y : RegIdx)           -- 8xy0
  | orReg (x y : RegIdx)           -- 8xy1
  | andReg (x y : RegIdx)          -- 8xy2
  | xorReg (x y : RegIdx)          -- 8xy3
  | addReg (x y : RegIdx)          -- 8xy4
  | sub (x y : RegIdx)             -- 8xy5
  | shr (x y : RegIdx)             -- 8xy6
  | subn (x y : RegIdx)            -- 8xy7
  | shl (x y : RegIdx)             -- 8xyE
  | sneReg (x y : RegIdx)          -- 9xy0
  | ldI (nnn : BitVec 12)          -- Annn
  | jpV0 (nnn : BitVec 12)         -- Bnnn
  | rnd (x : RegIdx) (kk : Byte)   -- Cxkk
  | drw (x y : RegIdx) (n : Nibble) -- Dxyn
  | skp (x : RegIdx)               -- Ex9E
  | sknp (x : RegIdx)              -- ExA1
  | ldVxDt (x : RegIdx)            -- Fx07
  | ldVxK (x : RegIdx)             -- Fx0A
  | ldDtVx (x : RegIdx)            -- Fx15
  | ldStVx (x : RegIdx)            -- Fx18
  | addI (x : RegIdx)              -- Fx1E
  | ldF (x : RegIdx)               -- Fx29
  | ldB (x : RegIdx)               -- Fx33
  | stRegs (x : RegIdx)            -- Fx55
  | ldRegs (x : RegIdx)            -- Fx65
  deriving DecidableEq, Repr

/-- Why the decoder rejects: the word is unassigned in its family (R75 to R78, R80, R81), or fewer than two bytes were given
(R70: every instruction is two bytes). An unassigned word is no error of the machine: the cycle that fetches it is a no-op. -/
inductive DecodeReject where
  /-- Top nibble 0, low byte neither 0xE0 nor 0xEE (R75). -/
  | unassigned0 (kk : Byte)
  /-- Top nibble 8, low nibble 8 to 0xD or 0xF (R76). -/
  | unassigned8 (n : Nibble)
  /-- Top nibble 0xE, low byte neither 0x9E nor 0xA1 (R77). -/
  | unassignedE (kk : Byte)
  /-- Top nibble 0xF, low byte none of the nine keys (R78). -/
  | unassignedF (kk : Byte)
  /-- Fewer than two bytes (R70). Raised by the byte-level decoder only; a fetch always has two bytes. -/
  | truncated
  deriving DecidableEq, Repr

/-- A row of the opcode map (R85): the label, the bits the row fixes, and their values. -/
structure OpcodeRow where
  mnemonic : String
  mask : Word
  matchBits : Word
  deriving DecidableEq, Repr

end Sys2Proof
end

