-- ==== Sys2Proof/Config.lean ====
section
/-! DEFINITION. The parameters of the block (00_scope.md R3) that are plain numbers of the source, and the values the spec leaves
OPEN, which have no body: nothing can evaluate them or prove a value of them (logs 17 and 22). -/

namespace Sys2Proof

/-- MEM_SIZE: 4096 bytes (R3, R20). -/
def Config.memSize : Nat := 4096

/-- ROM_START: 0x200 (R3, R231). -/
def Config.romStart : Nat := 0x200

/-- ROM_MAX: 3584 bytes, since 0x200 + size must not exceed 4096 (R3, R232). -/
def Config.romMax : Nat := 3584

/-- STACK_DEPTH: 16 slots (R3, R25). -/
def Config.stackDepth : Nat := 16

/-- FB_W: 64 columns (R3, R28). -/
def Config.fbWidth : Nat := 64

/-- FB_H: 32 rows (R3, R28). -/
def Config.fbHeight : Nat := 32

/-- RNG, an OPEN parameter (R3, R31, R165, decision D17): the byte that draw number `draw` of the sequence `seed` returns. A FREE
VALUE (log 17): no body, so a claim about a random byte holds for every byte. -/
opaque Config.randomByte (seed draw : Nat) : Byte

/-- SOUND_OUT, an OPEN parameter (R3, R210, decision D23): whether the block has an output that shows `ST != 0`. No body
(log 22). -/
opaque Config.soundOutPresent : Bool

end Sys2Proof
end

