-- ==== Sys2Proof/WellFormed.lean ====
section
/-! DEFINITION. Well-formedness. An `Instr` needs no check: each field's type has exactly the width of its field, and R73 says that
every index and every immediate is valid, so a value that is no instruction cannot be written. What can be ill-formed is what the
host hands to the block: a ROM image (70_reset_and_hazards.md R232). -/

namespace Sys2Proof

/-- An image is empty: the first of the two refusals of R232 that the block can see. -/
def RomImage.isEmpty (image : List Byte) : Bool := image.length == 0

/-- 0x200 + size exceeds the memory size: the second refusal of R232. -/
def RomImage.isOversized (image : List Byte) : Bool :=
  decide (Config.memSize < Config.romStart + image.length)

/-- The legal sizes are 1 to 3584 bytes (R232). -/
def RomImage.wellFormed (image : List Byte) : Bool :=
  !RomImage.isEmpty image && !RomImage.isOversized image

end Sys2Proof
end

