-- ==== Sys2Proof/Decode.lean ====
section
/-! DEFINITION. The decoder (30_encoding.md R74 to R79), total on every word and every list of bytes and rejecting by name; after it
the encoder, written from the formats of R72 and the match values of R85; and the opcode map R85 itself as a list of rows. -/

namespace Sys2Proof

/-! ### Fields (R71) -/

/-- Bits 15:12, the first-level decode key. -/
def opOf (w : Word) : Nibble := w.extractLsb' 12 4

/-- Bits 11:8, a register number. -/
def xOf (w : Word) : RegIdx := (w.extractLsb' 8 4).toFin

/-- Bits 7:4, a register number. -/
def yOf (w : Word) : RegIdx := (w.extractLsb' 4 4).toFin

/-- Bits 3:0. -/
def nOf (w : Word) : Nibble := w.extractLsb' 0 4

/-- Bits 7:0. -/
def kkOf (w : Word) : Byte := w.extractLsb' 0 8

/-- Bits 11:0. -/
def nnnOf (w : Word) : BitVec 12 := w.extractLsb' 0 12

/-! ### Second-level decode -/

/-- Family 0: the key is the low byte, bits 11:8 are ignored (R75; log 3). -/
def decodeFamily0 (w : Word) : Except DecodeReject Instr :=
  match (kkOf w).toNat with
  | 0xE0 => .ok .cls
  | 0xEE => .ok .ret
  | _ => .error (.unassigned0 (kkOf w))

/-- Family 8: the key is the low nibble (R76). -/
def decodeFamily8 (w : Word) : Except DecodeReject Instr :=
  match (nOf w).toNat with
  | 0x0 => .ok (.ldReg (xOf w) (yOf w))
  | 0x1 => .ok (.orReg (xOf w) (yOf w))
  | 0x2 => .ok (.andReg (xOf w) (yOf w))
  | 0x3 => .ok (.xorReg (xOf w) (yOf w))
  | 0x4 => .ok (.addReg (xOf w) (yOf w))
  | 0x5 => .ok (.sub (xOf w) (yOf w))
  | 0x6 => .ok (.shr (xOf w) (yOf w))
  | 0x7 => .ok (.subn (xOf w) (yOf w))
  | 0xE => .ok (.shl (xOf w) (yOf w))
  | _ => .error (.unassigned8 (nOf w))

/-- Family E: the key is the low byte (R77; log 3). -/
def decodeFamilyE (w : Word) : Except DecodeReject Instr :=
  match (kkOf w).toNat with
  | 0x9E => .ok (.skp (xOf w))
  | 0xA1 => .ok (.sknp (xOf w))
  | _ => .error (.unassignedE (kkOf w))

/-- Family F: the key is the low byte (R78). -/
def decodeFamilyF (w : Word) : Except DecodeReject Instr :=
  match (kkOf w).toNat with
  | 0x07 => .ok (.ldVxDt (xOf w))
  | 0x0A => .ok (.ldVxK (xOf w))
  | 0x15 => .ok (.ldDtVx (xOf w))
  | 0x18 => .ok (.ldStVx (xOf w))
  | 0x1E => .ok (.addI (xOf w))
  | 0x29 => .ok (.ldF (xOf w))
  | 0x33 => .ok (.ldB (xOf w))
  | 0x55 => .ok (.stRegs (xOf w))
  | 0x65 => .ok (.ldRegs (xOf w))
  | _ => .error (.unassignedF (kkOf w))

/-! ### First-level decode -/

/-- `Decode(IR)` (R74, R94): the top nibble selects; families 0, 8, E and F decode a second time; families 5 and 9 ignore their low
nibble (R79; log 4). The top nibble has sixteen values, so the last arm is the family F. -/
def decodeWord (w : Word) : Except DecodeReject Instr :=
  match (opOf w).toNat with
  | 0x0 => decodeFamily0 w
  | 0x1 => .ok (.jp (nnnOf w))
  | 0x2 => .ok (.call (nnnOf w))
  | 0x3 => .ok (.seImm (xOf w) (kkOf w))
  | 0x4 => .ok (.sneImm (xOf w) (kkOf w))
  | 0x5 => .ok (.seReg (xOf w) (yOf w))
  | 0x6 => .ok (.ldImm (xOf w) (kkOf w))
  | 0x7 => .ok (.addImm (xOf w) (kkOf w))
  | 0x8 => decodeFamily8 w
  | 0x9 => .ok (.sneReg (xOf w) (yOf w))
  | 0xA => .ok (.ldI (nnnOf w))
  | 0xB => .ok (.jpV0 (nnnOf w))
  | 0xC => .ok (.rnd (xOf w) (kkOf w))
  | 0xD => .ok (.drw (xOf w) (yOf w) (nOf w))
  | 0xE => decodeFamilyE w
  | _ => decodeFamilyF w

/-- The instruction at the head of a list of bytes, high byte first (R52, R70), with the bytes that follow it. -/
def decodeBytes : List Byte → Except DecodeReject (Instr × List Byte)
  | hi :: lo :: rest =>
    match decodeWord (wordOfBytes hi lo) with
    | .ok i => .ok (i, rest)
    | .error e => .error e
  | _ => .error .truncated

/-- The first `nbits` bits of a word numbered as spec/opcode_table.json numbers it, bit 0 least significant. -/
def tableWord (nbits w : Nat) : Word := BitVec.ofNat 16 (w % 2 ^ nbits)

/-- The instruction the decoder reads from a row's word: the word laid out high byte first (R52) and given to the byte-level
decoder; none where it rejects. -/
def decodeTableWord (nbits w : Nat) : Option Instr :=
  match decodeBytes [hiByte (tableWord nbits w), loByte (tableWord nbits w)] with
  | .ok (i, _) => some i
  | .error _ => none

/-! ### The encoder (R72, R79, R85) -/

/-- A register number as a field of an instruction word. -/
def regField (r : RegIdx) : Nibble := .ofFin r

/-- Format NNN: `op`, then the 12-bit address. -/
def wordNNN (op : Nibble) (nnn : BitVec 12) : Word := (op ++ nnn).cast (by decide)

/-- Format XKK: `op`, `x`, then the immediate byte. Format X is the same with the second-level key as the byte. -/
def wordXKK (op : Nibble) (x : RegIdx) (kk : Byte) : Word := wordNNN op ((regField x ++ kk).cast (by decide))

/-- Format XYN: `op`, `x`, `y`, `n`. Format XY is the same with the sub-opcode, or the canonical 0 of an ignored nibble, as `n`. -/
def wordXYN (op : Nibble) (x y : RegIdx) (n : Nibble) : Word :=
  wordXKK op x ((regField y ++ n).cast (by decide))

/-- The canonical word of an instruction: every ignored nibble that is no field is zero (R79). -/
def encode : Instr → Word
  | .cls => wordNNN 0x0 0x0E0
  | .ret => wordNNN 0x0 0x0EE
  | .jp nnn => wordNNN 0x1 nnn
  | .call nnn => wordNNN 0x2 nnn
  | .seImm x kk => wordXKK 0x3 x kk
  | .sneImm x kk => wordXKK 0x4 x kk
  | .seReg x y => wordXYN 0x5 x y 0x0
  | .ldImm x kk => wordXKK 0x6 x kk
  | .addImm x kk => wordXKK 0x7 x kk
  | .ldReg x y => wordXYN 0x8 x y 0x0
  | .orReg x y => wordXYN 0x8 x y 0x1
  | .andReg x y => wordXYN 0x8 x y 0x2
  | .xorReg x y => wordXYN 0x8 x y 0x3
  | .addReg x y => wordXYN 0x8 x y 0x4
  | .sub x y => wordXYN 0x8 x y 0x5
  | .shr x y => wordXYN 0x8 x y 0x6
  | .subn x y => wordXYN 0x8 x y 0x7
  | .shl x y => wordXYN 0x8 x y 0xE
  | .sneReg x y => wordXYN 0x9 x y 0x0
  | .ldI nnn => wordNNN 0xA nnn
  | .jpV0 nnn => wordNNN 0xB nnn
  | .rnd x kk => wordXKK 0xC x kk
  | .drw x y n => wordXYN 0xD x y n
  | .skp x => wordXKK 0xE x 0x9E
  | .sknp x => wordXKK 0xE x 0xA1
  | .ldVxDt x => wordXKK 0xF x 0x07
  | .ldVxK x => wordXKK 0xF x 0x0A
  | .ldDtVx x => wordXKK 0xF x 0x15
  | .ldStVx x => wordXKK 0xF x 0x18
  | .addI x => wordXKK 0xF x 0x1E
  | .ldF x => wordXKK 0xF x 0x29
  | .ldB x => wordXKK 0xF x 0x33
  | .stRegs x => wordXKK 0xF x 0x55
  | .ldRegs x => wordXKK 0xF x 0x65

/-- The two bytes of an instruction as memory holds them, high byte first (R52). -/
def encodeBytes (i : Instr) : List Byte := [hiByte (encode i), loByte (encode i)]

/-- A word is a canonical encoding: it decodes, and its ignored bits are zero (R79). -/
def isCanonicalWord (w : Word) : Bool :=
  match decodeWord w with
  | .ok i => encode i == w
  | .error _ => false

/-! ### The opcode map (R85) -/

/-- The label of an instruction's row (R85, decision D19), letter for letter as the table spells it. -/
def Instr.mnemonic : Instr → String
  | .cls => "CLS"
  | .ret => "RET"
  | .jp _ => "JP"
  | .call _ => "CALL"
  | .seImm _ _ => "SE_IMM"
  | .sneImm _ _ => "SNE_IMM"
  | .seReg _ _ => "SE_REG"
  | .ldImm _ _ => "LD_IMM"
  | .addImm _ _ => "ADD_IMM"
  | .ldReg _ _ => "LD_REG"
  | .orReg _ _ => "OR"
  | .andReg _ _ => "AND"
  | .xorReg _ _ => "XOR"
  | .addReg _ _ => "ADD_REG"
  | .sub _ _ => "SUB"
  | .shr _ _ => "SHR"
  | .subn _ _ => "SUBN"
  | .shl _ _ => "SHL"
  | .sneReg _ _ => "SNE_REG"
  | .ldI _ => "LD_I"
  | .jpV0 _ => "JP_V0"
  | .rnd _ _ => "RND"
  | .drw _ _ _ => "DRW"
  | .skp _ => "SKP"
  | .sknp _ => "SKNP"
  | .ldVxDt _ => "LD_VX_DT"
  | .ldVxK _ => "LD_VX_K"
  | .ldDtVx _ => "LD_DT_VX"
  | .ldStVx _ => "LD_ST_VX"
  | .addI _ => "ADD_I"
  | .ldF _ => "LD_F"
  | .ldB _ => "LD_B"
  | .stRegs _ => "ST_REGS"
  | .ldRegs _ => "LD_REGS"

/-- The complete opcode map (R85), one row for each instruction in the order of the table: label, mask, match. -/
def opcodeMap : List OpcodeRow :=
  [⟨"CLS", 0xF0FF, 0x00E0⟩,
   ⟨"RET", 0xF0FF, 0x00EE⟩,
   ⟨"JP", 0xF000, 0x1000⟩,
   ⟨"CALL", 0xF000, 0x2000⟩,
   ⟨"SE_IMM", 0xF000, 0x3000⟩,
   ⟨"SNE_IMM", 0xF000, 0x4000⟩,
   ⟨"SE_REG", 0xF000, 0x5000⟩,
   ⟨"LD_IMM", 0xF000, 0x6000⟩,
   ⟨"ADD_IMM", 0xF000, 0x7000⟩,
   ⟨"LD_REG", 0xF00F, 0x8000⟩,
   ⟨"OR", 0xF00F, 0x8001⟩,
   ⟨"AND", 0xF00F, 0x8002⟩] ++
  [⟨"XOR", 0xF00F, 0x8003⟩,
   ⟨"ADD_REG", 0xF00F, 0x8004⟩,
   ⟨"SUB", 0xF00F, 0x8005⟩,
   ⟨"SHR", 0xF00F, 0x8006⟩,
   ⟨"SUBN", 0xF00F, 0x8007⟩,
   ⟨"SHL", 0xF00F, 0x800E⟩,
   ⟨"SNE_REG", 0xF000, 0x9000⟩,
   ⟨"LD_I", 0xF000, 0xA000⟩,
   ⟨"JP_V0", 0xF000, 0xB000⟩,
   ⟨"RND", 0xF000, 0xC000⟩,
   ⟨"DRW", 0xF000, 0xD000⟩,
   ⟨"SKP", 0xF0FF, 0xE09E⟩] ++
  [⟨"SKNP", 0xF0FF, 0xE0A1⟩,
   ⟨"LD_VX_DT", 0xF0FF, 0xF007⟩,
   ⟨"LD_VX_K", 0xF0FF, 0xF00A⟩,
   ⟨"LD_DT_VX", 0xF0FF, 0xF015⟩,
   ⟨"LD_ST_VX", 0xF0FF, 0xF018⟩,
   ⟨"ADD_I", 0xF0FF, 0xF01E⟩,
   ⟨"LD_F", 0xF0FF, 0xF029⟩,
   ⟨"LD_B", 0xF0FF, 0xF033⟩,
   ⟨"ST_REGS", 0xF0FF, 0xF055⟩,
   ⟨"LD_REGS", 0xF0FF, 0xF065⟩]

/-- A word selects the row for which `w AND mask = match` (R85). -/
def OpcodeRow.selectedBy (row : OpcodeRow) (w : Word) : Bool := w &&& row.mask == row.matchBits

end Sys2Proof
end

