-- ==== Sys2Proof/Machine/Flags.lean ====
section
/-! DEFINITION. The flag results, each 0 or 1 in a byte of VF (10_state.md R22, 43_alu.md R136 to R140, 46_display.md R176). -/

namespace Sys2Proof.Machine

/-- A condition as the flag byte 1 or 0 (R22: "each always writes 0 or 1"). -/
def flagByte (c : Bool) : Byte := if c then 1 else 0

/-- The widened sum of `8xy4`: 9 bits, 0 to 510 (R136). -/
def wideSum (a b : Byte) : BitVec 9 := a.zeroExtend 9 + b.zeroExtend 9

/-- The carry of `8xy4`: 1 if the widened sum is above 255 (R136). -/
def carryFlag (a b : Byte) : Byte := flagByte (decide (255 < (wideSum a b).toNat))

/-- The flag of `8xy5` and `8xy7`: 1 exactly when the minuend is strictly greater, unsigned (R137, R139; log 26). -/
def greaterFlag (a b : Byte) : Byte := flagByte (decide (b.toNat < a.toNat))

/-- The flag of `8xy6`: the bit shifted out at the bottom (R138). -/
def lowBitFlag (a : Byte) : Byte := flagByte (a.getLsbD 0)

/-- The flag of `8xyE`: the bit shifted out at the top (R140). -/
def topBitFlag (a : Byte) : Byte := flagByte (a.getLsbD 7)

end Sys2Proof.Machine
end

