-- ==== Sys2Proof/Machine/State.lean ====
section
/-! DEFINITION. The state of the block (10_state.md R20 to R32), as plain data, its reset value (R35 to R38), and the reasons a step
could stop. -/

namespace Sys2Proof.Machine

/-- The critical error flag's three values (R30, R201). No instruction reads it, so it is an enumeration and not a number
(log 12). -/
inductive CriticalError where
  /-- No stack fault since reset. -/
  | noFault
  /-- `00EE` ran with an empty stack. -/
  | stackUnderflow
  /-- `2nnn` ran with a full stack. -/
  | stackOverflow
  deriving DecidableEq, Repr

/-- The random byte source (R31). Its real state is not stated; these three fields are the MODEL'S own (log 17): which sequence, how
many bytes of it were drawn, and the bytes a test bench put in front (R213), which are drawn first. -/
structure Rng where
  seed : Nat
  draws : Nat
  injected : List Byte
  deriving DecidableEq, Repr

/-- The memory `M` (R20): address and byte pairs, addresses strictly rising, no entry equal to what an unlisted address reads as
(`Memory.wf`, log 32). -/
abbrev Memory := List Host.Cell

/-- Sixteen key-down levels, true for down (R27, log 10). -/
abbrev Keys := Vector Bool 16

/-- 2048 cells of one bit, 32 rows of 64 columns (R28): the cell in row `y`, column `x` is bit `x` of row `y`, 1 for a lit pixel. The
spec XORs pixels onto it, so each row is a bit vector. -/
abbrev Framebuffer := Vector (BitVec 64) 32

/-- The framebuffer with every cell 0 (R175). -/
def Framebuffer.dark : Framebuffer := Vector.replicate 32 0

/-- All the state of the block (R32), and `keyIn`, the model's own field for what the host presents at the port `key_in`. -/
structure State where
  /-- `M`, 4096 bytes (R20). -/
  mem : Memory
  /-- `V[0]` to `V[15]` (R21); `V[15]` is VF (R22). -/
  v : Vector Byte 16
  /-- `I`, the index register (R23). -/
  i : Word
  /-- `PC`, the program counter (R24). -/
  pc : Word
  /-- `STACK[0]` to `STACK[15]` (R25). -/
  stack : Vector Word 16
  /-- `SP`, 0 to 16 (R25). -/
  sp : Fin 17
  /-- `DT`, the delay timer (R26). -/
  dt : Byte
  /-- `ST`, the sound timer (R26). -/
  st : Byte
  /-- `KEY`, the keypad state (R27). -/
  keys : Keys
  /-- `FB`, the framebuffer (R28). -/
  fb : Framebuffer
  /-- `IR`, the instruction word of the current or the last cycle (R29, log 25). -/
  ir : Word
  /-- `CEF`, the critical error flag (R30). -/
  cef : CriticalError
  /-- `RNG`, the random byte source (R31). -/
  rng : Rng
  /-- The levels at the port `key_in` for the coming cycles, the next one first (R33, R91; model's own field, log 18). -/
  keyIn : List Keys
  deriving DecidableEq, Repr

/-- Why a step ends in a fault: never. "There is no fatal/aborting error path inside the core" (R200, R101), so the type has no
constructor, and no claim can rest on a fault (log 28; safe). -/
inductive Fault where
  deriving DecidableEq, Repr

/-- Why a step is refused. -/
inductive Refusal where
  /-- An instruction with no meaning yet, by its mnemonic. Raised by an arm of `exec` only; no arm raises it now. Safe. -/
  | notModelled (mnemonic : String)
  deriving DecidableEq, Repr

/-- The machine right after reset (R230, R35, R36), with the default font (log 14) and the random sequence 0 (log 17); any font and any
sequence are `State.resetWith`. Memory lists nothing, because an unlisted address reads as the content it has here. -/
def State.reset : State where
  mem := []
  v := Vector.replicate 16 0
  i := 0
  pc := 0x0200
  stack := Vector.replicate 16 0
  sp := 0
  dt := 0
  st := 0
  keys := Vector.replicate 16 false
  fb := .dark
  ir := 0
  cef := .noFault
  rng := { seed := 0, draws := 0, injected := [] }
  keyIn := []

end Sys2Proof.Machine
end

