-- ==== Sys2Proof/Machine/Memory.lean ====
section
/-! DEFINITION. The memory: the font table, what an unlisted address reads as, reading and writing one byte (20_memory.md R50 to R56),
and the canonical form. -/

namespace Sys2Proof.Machine

/-! ### The font (10_state.md R37) -/

/-- FONT_BASE (R3, R37). -/
def fontBase : Nat := 0x050

/-- FONT_TABLE, the OPEN parameter (R3, R37, decision D14): sixteen glyphs of five bytes, row 0 first. -/
abbrev FontTable := Vector (Vector Byte 5) 16

/-- The default's glyphs 0 to 7, five rows each (R37; PRESUMED, log 14). -/
def defaultFontLow : List Byte :=
  [0xF0, 0x90, 0x90, 0x90, 0xF0] ++ [0x20, 0x60, 0x20, 0x20, 0x70] ++
  [0xF0, 0x10, 0xF0, 0x80, 0xF0] ++ [0xF0, 0x10, 0xF0, 0x10, 0xF0] ++
  [0x90, 0x90, 0xF0, 0x10, 0x10] ++ [0xF0, 0x80, 0xF0, 0x10, 0xF0] ++
  [0xF0, 0x80, 0xF0, 0x90, 0xF0] ++ [0xF0, 0x10, 0x20, 0x40, 0x40]

/-- The default's glyphs 8 to F (R37; PRESUMED, log 14). -/
def defaultFontHigh : List Byte :=
  [0xF0, 0x90, 0xF0, 0x90, 0xF0] ++ [0xF0, 0x90, 0xF0, 0x10, 0xF0] ++
  [0xF0, 0x90, 0xF0, 0x90, 0x90] ++ [0xE0, 0x90, 0xE0, 0x90, 0xE0] ++
  [0xF0, 0x80, 0x80, 0x80, 0xF0] ++ [0xE0, 0x90, 0x90, 0x90, 0xE0] ++
  [0xF0, 0x80, 0xF0, 0x80, 0xF0] ++ [0xF0, 0x80, 0xF0, 0x80, 0x80]

/-- The default's eighty bytes in glyph order, row-major (R37). -/
def defaultFontBytes : List Byte := defaultFontLow ++ defaultFontHigh

/-- The default value of FONT_TABLE (R37; PRESUMED, log 14). -/
def defaultFont : FontTable := Vector.ofFn fun k => Vector.ofFn fun r => defaultFontBytes.getD (5 * k.val + r.val) 0

/-- A font table as the Font Loader lays it out: in glyph order, row-major (R37). -/
def fontBytes (font : FontTable) : List Byte :=
  List.ofFn fun j : Fin 80 => (font[j.val / 5]'(by omega))[j.val % 5]'(Nat.mod_lt _ (by decide))

/-- What an address that is not listed reads as: its content at `State.reset`, the default font at 0x050 to 0x09F and zero elsewhere
(R35, R37; log 32). Another font is listed by `Memory.loadFont`. -/
def background (a : Nat) : Byte :=
  if fontBase ≤ a ∧ a < fontBase + 80 then defaultFontBytes.getD (a - fontBase) 0 else 0

/-! ### The port (R51) -/

/-- The reduction of an address at the memory port: its low 12 bits (R51; log 1). -/
def portAddr (a : Nat) : Nat := a % Config.memSize

/-- The byte at a cell's key. -/
def Memory.get (k : Nat) : Memory → Byte
  | [] => background k
  | (k', b) :: rest => if k = k' then b else Memory.get k rest

/-- The cell at `k` set to `b`, keeping the canonical form: a byte equal to the background is not listed. -/
def Memory.put (k : Nat) (b : Byte) : Memory → Memory
  | [] => if b = background k then [] else [(k, b)]
  | (k', b') :: rest =>
    if k < k' then (if b = background k then (k', b') :: rest else (k, b) :: (k', b') :: rest)
    else if k = k' then (if b = background k then rest else (k, b) :: rest)
    else (k', b') :: Memory.put k b rest

/-- `MemRead(addr, 1)` (R51). No access faults and none has a side effect (R56). -/
def Memory.read (m : Memory) (a : Nat) : Byte := m.get (portAddr a)

/-- `MemWrite(addr, 1, v)` (R51). -/
def Memory.write (m : Memory) (a : Nat) (b : Byte) : Memory := m.put (portAddr a) b

/-- The bytes of a list stored at ascending addresses from `a`. -/
def Memory.writeBytes (m : Memory) (a : Nat) : List Byte → Memory
  | [] => m
  | b :: rest => (m.write a b).writeBytes (a + 1) rest

/-- The Font Loader (R37): the table copied into memory from the font base up. Irreducible, so that no unifier runs eighty stores of
bytes it does not know. -/
@[irreducible] def Memory.loadFont (m : Memory) (font : FontTable) : Memory := m.writeBytes fontBase (fontBytes font)

/-- The canonical form (log 32): addresses strictly rising and inside the 4096 bytes of `M` (R20), no entry equal to the
background. -/
abbrev Memory.wf (m : Memory) : Prop :=
  m.Pairwise (fun c d => c.1 < d.1) ∧ ∀ c ∈ m, c.1 < Config.memSize ∧ c.2 ≠ background c.1

end Sys2Proof.Machine
end

