-- ==== Sys2Proof/Machine/Operands.lean ====
section
/-! DEFINITION. The operand forms (30_encoding.md R73): a register named by `x` or `y`, an immediate, and the implicit operands, with
the address forms of 44_index_memory.md and the pixel coordinates of 46_display.md. -/

namespace Sys2Proof.Machine

/-- The register number of VF (R22). -/
def vf : RegIdx := 15

/-- Read of `V[r]` (R21). No register is hard-wired. -/
def State.readV (s : State) (r : RegIdx) : Byte := s.v[r.val]

/-- `V[r] <- b` (R21). -/
def State.writeV (s : State) (r : RegIdx) (b : Byte) : State := { s with v := s.v.set r.val b }

/-- The address immediate, zero-extended to 16 bits (R73). -/
def nnnAddr (nnn : BitVec 12) : Word := nnn.zeroExtend 16

/-- A register value zero-extended to 16 bits (R5). -/
def zext16 (b : Byte) : Word := b.zeroExtend 16

/-- The one addressing mode: `I` plus a small offset, before the reduction at the port (44_index_memory.md; R51). -/
def State.dataAddr (s : State) (offset : Nat) : Nat := s.i.toNat + offset

/-- `fontBase + 5 * Vx`, of the whole register value (R152; log 21). -/
def glyphAddr (b : Byte) : Word := BitVec.ofNat 16 fontBase + 5 * zext16 b

/-- The hundreds, tens and ones digit of a byte, in this order (R153). -/
def bcdDigits (b : Byte) : List Byte :=
  [BitVec.ofNat 8 (b.toNat / 100), BitVec.ofNat 8 (b.toNat / 10 % 10), BitVec.ofNat 8 (b.toNat % 10)]

/-- The key that a register value names: its low four bits (R188; log 9). -/
def keyOf (b : Byte) : KeyIdx := (b.extractLsb' 0 4).toFin

/-- `KeyDown(v)` (R188). -/
def State.keyDown (s : State) (b : Byte) : Bool := s.keys[(keyOf b).val]

/-- The least key that is down, if any (R187; log 8). -/
def State.firstKeyDown (s : State) : Option KeyIdx :=
  (List.finRange 16).find? fun k => s.keys[k.val]

/-- Row `cy` of the framebuffer, wrapped modulo its height (R28, R176). -/
def Framebuffer.row (fb : Framebuffer) (cy : Nat) : BitVec 64 := fb[cy % Config.fbHeight]'(Nat.mod_lt _ (by decide))

/-- `FB[cy][cx]`, both coordinates wrapped modulo the screen's size (R28, R176). -/
def Framebuffer.cell (fb : Framebuffer) (cx cy : Nat) : Bool := (fb.row cy).getLsbD (cx % Config.fbWidth)

/-- `FB[cy][cx] <- FB[cy][cx] XOR 1`, both coordinates wrapped (R176). -/
def Framebuffer.toggle (fb : Framebuffer) (cx cy : Nat) : Framebuffer :=
  fb.set (cy % Config.fbHeight) (fb.row cy ^^^ BitVec.twoPow 64 (cx % Config.fbWidth)) (Nat.mod_lt _ (by decide))

/-- The bit of a sprite byte that column `c` of the sprite shows: bit 7 is the leftmost (R176; log 15). -/
def spriteBit (b : Byte) (c : Nat) : Bool := b.getLsbD (7 - c)

end Sys2Proof.Machine
end

