-- ==== Sys2Proof/Machine/Ops.lean ====
section
/-! DEFINITION. The named operations over the state: memory and registers, the skip, the stack manager with the recording of a fault,
the random byte, drawing, and the parts of a cycle around the handler (40_cycle_dispatch.md). -/

namespace Sys2Proof.Machine

/-! ### Memory -/

/-- `MemRead(addr, 1)` (R51). -/
def State.readByte (s : State) (a : Nat) : Byte := s.mem.read a

/-- Bytes stored at ascending addresses from `a` (R51, R53). -/
def State.storeBytes (s : State) (a : Nat) (bs : List Byte) : State := { s with mem := s.mem.writeBytes a bs }

/-! ### Program counter -/

/-- `PC <- target` (R24). -/
def State.jumpTo (s : State) (target : Word) : State := { s with pc := target }

/-- `Skip()` (R97): `PC <- PC + 2` modulo 65536 (log 2). -/
def State.skip (s : State) : State := { s with pc := s.pc + 2 }

/-- A skip on a condition (R97). -/
def State.skipIf (s : State) (c : Bool) : State := if c then s.skip else s

/-- `PC <- PC - 2` modulo 65536, back to the instruction's own address (R187; log 2). -/
def State.rewind (s : State) : State := { s with pc := s.pc - 2 }

/-! ### Faults and the stack manager

A fault of this machine transfers no control, saves nothing and switches nothing: its one shared effect is the write of `CEF`
(60_exceptions.md R200, R206), and there is no return from it (R207). -/

/-- `CEF <- e` (R201, R202): a later fault overwrites an earlier one. -/
def State.recordFault (s : State) (e : CriticalError) : State := { s with cef := e }

/-- `Push(a)` (R98): on a full stack the push is dropped and an overflow recorded. -/
def State.push (s : State) (a : Word) : State :=
  if h : s.sp.val < 16 then
    { s with stack := s.stack.set s.sp.val a h, sp := ⟨s.sp.val + 1, by omega⟩ }
  else s.recordFault .stackOverflow

/-- `Pop()` (R99): the popped value, or none and an underflow recorded on an empty stack. The popped slot keeps its content. -/
def State.pop (s : State) : Option Word × State :=
  if h : s.sp.val = 0 then (none, s.recordFault .stackUnderflow)
  else (some (s.stack[s.sp.val - 1]'(by omega)), { s with sp := ⟨s.sp.val - 1, by omega⟩ })

/-! ### The random byte source (R165, R213) -/

/-- The byte the source returns next: the first injected byte, or else the free value (log 17). -/
def Rng.peek (g : Rng) : Byte :=
  match g.injected with
  | [] => Config.randomByte g.seed g.draws
  | b :: _ => b

/-- The source after one byte was drawn. -/
def Rng.advance (g : Rng) : Rng :=
  match g.injected with
  | [] => { g with draws := g.draws + 1 }
  | _ :: rest => { g with injected := rest }

/-! ### Drawing (R176) -/

/-- One pixel of a sprite: the cell is toggled, and a lit cell records a collision. -/
def drawPixel (acc : Framebuffer × Bool) (cx cy : Nat) : Framebuffer × Bool :=
  (acc.1.toggle cx cy, acc.2 || acc.1.cell cx cy)

/-- One row of a sprite: the columns whose bit is 1, left to right. -/
def drawRow (b : Byte) (px cy : Nat) (acc : Framebuffer × Bool) : Framebuffer × Bool :=
  (List.range 8).foldl (fun acc c => if spriteBit b c then drawPixel acc (px + c) cy else acc) acc

/-- A sprite of `n` rows read from `I` up, its top-left pixel in column `px`, row `py`: the framebuffer after it and whether a lit
pixel was cleared. -/
def drawSprite (s : State) (px py n : Nat) : Framebuffer × Bool :=
  (List.range n).foldl (fun acc r => drawRow (s.readByte (s.dataAddr r)) px (py + r) acc) (s.fb, false)

/-! ### The cycle around the handler (R90) -/

/-- Step 0, key sampling (R91): the levels presented for this cycle, or the old ones when the host presented none. -/
def State.sampleKeys (s : State) : State :=
  match s.keyIn with
  | [] => s
  | k :: rest => { s with keys := k, keyIn := rest }

/-- Step 1, the fetched word: the byte at `PC` is the high byte (R52, R92). -/
def State.fetchWord (s : State) : Word := wordOfBytes (s.readByte s.pc.toNat) (s.readByte (s.pc.toNat + 1))

/-- Steps 1 and 2: `IR` from memory, then `PC <- PC + 2` modulo 65536, before the handler (R92, R93; log 2). -/
def State.fetchAdvance (s : State) : State := { s with ir := s.fetchWord, pc := s.pc + 2 }

/-- A timer after a tick: one less, floored at zero (R96). -/
def tickTimer (t : Byte) : Byte := if t = 0 then 0 else t - 1

/-- Step 5, the tick of both timers, after the handler (R96). -/
def State.tick (s : State) : State := { s with dt := tickTimer s.dt, st := tickTimer s.st }

/-- Steps 0 to 2: what has happened when decode starts. -/
def State.beginCycle (s : State) : State := s.sampleKeys.fetchAdvance

/-- The end of a cycle whose handler answered `o`: the tick follows a next state. -/
def endCycle (o : Host.Outcome State Fault Refusal) : Host.Outcome State Fault Refusal :=
  match o with
  | .next t => .next t.tick
  | .fault r => .fault r
  | .refused r => .refused r

/-- The handler of an unassigned word is the empty statement (R80). -/
def State.noHandler (s : State) : Host.Outcome State Fault Refusal := .next s

end Sys2Proof.Machine
end

