-- ==== Sys2Proof/Machine/Alu.lean ====
section
/-! DEFINITION. Register loads, arithmetic and logic: 6xkk, 7xkk, 8xy0 to 8xy7, 8xyE (43_alu.md). A handler's statements run in the
order written, each reading the registers as the one before left them (00_scope.md R7, 43_alu.md R141; log 6). -/

namespace Sys2Proof.Machine

/-- `6xkk` LD_IMM (R130). -/
def execLdImm (x : RegIdx) (kk : Byte) (s : State) : Host.Outcome State Fault Refusal :=
  .next (s.writeV x kk)

/-- `7xkk` ADD_IMM (R131): modulo 256, no flag. -/
def execAddImm (x : RegIdx) (kk : Byte) (s : State) : Host.Outcome State Fault Refusal :=
  .next (s.writeV x (s.readV x + kk))

/-- `8xy0` LD_REG (R132). -/
def execLdReg (x y : RegIdx) (s : State) : Host.Outcome State Fault Refusal :=
  .next (s.writeV x (s.readV y))

/-- `8xy1` OR (R133). -/
def execOrReg (x y : RegIdx) (s : State) : Host.Outcome State Fault Refusal :=
  .next (s.writeV x (s.readV x ||| s.readV y))

/-- `8xy2` AND (R134). -/
def execAndReg (x y : RegIdx) (s : State) : Host.Outcome State Fault Refusal :=
  .next (s.writeV x (s.readV x &&& s.readV y))

/-- `8xy3` XOR (R135). -/
def execXorReg (x y : RegIdx) (s : State) : Host.Outcome State Fault Refusal :=
  .next (s.writeV x (s.readV x ^^^ s.readV y))

/-- `8xy4` ADD_REG (R136): the widened sum first, then the carry to VF, then the result. -/
def execAddReg (x y : RegIdx) (s : State) : Host.Outcome State Fault Refusal :=
  let a := s.readV x
  let b := s.readV y
  .next ((s.writeV vf (carryFlag a b)).writeV x ((wideSum a b).truncate 8))

/-- `8xy5` SUB (R137): the flag to VF, then the difference of the registers as they are after that write. -/
def execSub (x y : RegIdx) (s : State) : Host.Outcome State Fault Refusal :=
  let t := s.writeV vf (greaterFlag (s.readV x) (s.readV y))
  .next (t.writeV x (t.readV x - t.readV y))

/-- `8xy6` SHR (R138): the flag to VF, then the logical shift of `V[x]` as it is after that write. `y` is ignored (log 5). -/
def execShr (x _y : RegIdx) (s : State) : Host.Outcome State Fault Refusal :=
  let t := s.writeV vf (lowBitFlag (s.readV x))
  .next (t.writeV x (t.readV x >>> 1))

/-- `8xy7` SUBN (R139): as SUB with the operands exchanged. -/
def execSubn (x y : RegIdx) (s : State) : Host.Outcome State Fault Refusal :=
  let t := s.writeV vf (greaterFlag (s.readV y) (s.readV x))
  .next (t.writeV x (t.readV y - t.readV x))

/-- `8xyE` SHL (R140): the flag to VF, then the shift of `V[x]` as it is after that write. `y` is ignored (log 5). -/
def execShl (x _y : RegIdx) (s : State) : Host.Outcome State Fault Refusal :=
  let t := s.writeV vf (topBitFlag (s.readV x))
  .next (t.writeV x (t.readV x <<< 1))

end Sys2Proof.Machine
end

