-- ==== Sys2Proof/Machine/ControlFlow.lean ====
section
/-! DEFINITION. Control transfer: 00EE, 1nnn, 2nnn, Bnnn (41_control_flow.md). `PC` is already the address of the next instruction
when a handler runs (40_cycle_dispatch.md R93). -/

namespace Sys2Proof.Machine

/-- `00EE` RET (R110): `PC` from `Pop()`, 0x0000 after an underflow. -/
def execRet (s : State) : Host.Outcome State Fault Refusal :=
  .next (s.pop.2.jumpTo (s.pop.1.getD 0))

/-- `1nnn` JP (R111). -/
def execJp (nnn : BitVec 12) (s : State) : Host.Outcome State Fault Refusal :=
  .next (s.jumpTo (nnnAddr nnn))

/-- `2nnn` CALL (R112): the return address is pushed, and the jump happens on a full stack too. -/
def execCall (nnn : BitVec 12) (s : State) : Host.Outcome State Fault Refusal :=
  .next ((s.push s.pc).jumpTo (nnnAddr nnn))

/-- `Bnnn` JP_V0 (R113). -/
def execJpV0 (nnn : BitVec 12) (s : State) : Host.Outcome State Fault Refusal :=
  .next (s.jumpTo (nnnAddr nnn + zext16 (s.readV 0)))

end Sys2Proof.Machine
end

