-- ==== Sys2Proof/Machine/Display.lean ====
section
/-! DEFINITION. The display: 00E0, Dxyn (46_display.md). -/

namespace Sys2Proof.Machine

/-- `00E0` CLS (R175). -/
def execCls (s : State) : Host.Outcome State Fault Refusal :=
  .next { s with fb := .dark }

/-- `Dxyn` DRW (R176): both coordinates are read before VF is written (log 16); VF is 1 if a lit pixel was cleared, else 0, also
when `n` is 0. -/
def execDrw (x y : RegIdx) (n : Nibble) (s : State) : Host.Outcome State Fault Refusal :=
  let drawn := drawSprite s (s.readV x).toNat (s.readV y).toNat n.toNat
  .next ({ s with fb := drawn.1 }.writeV vf (flagByte drawn.2))

end Sys2Proof.Machine
end

