-- ==== Sys2Proof/Machine/IndexMemory.lean ====
section
/-! DEFINITION. The index register and the data moves: Annn, Fx1E, Fx29, Fx33, Fx55, Fx65 (44_index_memory.md). -/

namespace Sys2Proof.Machine

/-- `Annn` LD_I (R150). -/
def execLdI (nnn : BitVec 12) (s : State) : Host.Outcome State Fault Refusal :=
  .next { s with i := nnnAddr nnn }

/-- `Fx1E` ADD_I (R151): modulo 65536, no clamp and no flag (log 2). -/
def execAddI (x : RegIdx) (s : State) : Host.Outcome State Fault Refusal :=
  .next { s with i := s.i + zext16 (s.readV x) }

/-- `Fx29` LD_F (R152). -/
def execLdF (x : RegIdx) (s : State) : Host.Outcome State Fault Refusal :=
  .next { s with i := glyphAddr (s.readV x) }

/-- `Fx33` LD_B (R153): hundreds, tens and ones at `I`, `I + 1`, `I + 2`. -/
def execLdB (x : RegIdx) (s : State) : Host.Outcome State Fault Refusal :=
  .next (s.storeBytes (s.dataAddr 0) (bcdDigits (s.readV x)))

/-- `Fx55` ST_REGS (R154): all sixteen registers, whatever `x` is; `I` is unchanged (log 7). -/
def execStRegs (_x : RegIdx) (s : State) : Host.Outcome State Fault Refusal :=
  .next (s.storeBytes (s.dataAddr 0) s.v.toList)

/-- `Fx65` LD_REGS (R155): all sixteen registers, whatever `x` is; `I` is unchanged (log 7). -/
def execLdRegs (_x : RegIdx) (s : State) : Host.Outcome State Fault Refusal :=
  .next { s with v := Vector.ofFn fun r => s.readByte (s.dataAddr r.val) }

end Sys2Proof.Machine
end

