-- ==== Sys2Proof/Machine/Keypad.lean ====
section
/-! DEFINITION. The keypad: Ex9E, ExA1, Fx0A (47_keypad.md). -/

namespace Sys2Proof.Machine

/-- `Ex9E` SKP (R185). -/
def execSkp (x : RegIdx) (s : State) : Host.Outcome State Fault Refusal :=
  .next (s.skipIf (s.keyDown (s.readV x)))

/-- `ExA1` SKNP (R186). -/
def execSknp (x : RegIdx) (s : State) : Host.Outcome State Fault Refusal :=
  .next (s.skipIf (!s.keyDown (s.readV x)))

/-- `Fx0A` LD_VX_K (R187): the least key that is down, or back to this instruction's own address. -/
def execLdVxK (x : RegIdx) (s : State) : Host.Outcome State Fault Refusal :=
  match s.firstKeyDown with
  | some k => .next (s.writeV x (BitVec.ofNat 8 k.val))
  | none => .next s.rewind

end Sys2Proof.Machine
end

