-- ==== Sys2Proof/Machine/RandomTimers.lean ====
section
/-! DEFINITION. The random byte and the timers: Cxkk, Fx07, Fx15, Fx18 (45_random_timers.md). -/

namespace Sys2Proof.Machine

/-- `Cxkk` RND (R165): one byte is drawn, whatever the mask. -/
def execRnd (x : RegIdx) (kk : Byte) (s : State) : Host.Outcome State Fault Refusal :=
  .next ({ s with rng := s.rng.advance }.writeV x (s.rng.peek &&& kk))

/-- `Fx07` LD_VX_DT (R166): the value before this cycle's tick. -/
def execLdVxDt (x : RegIdx) (s : State) : Host.Outcome State Fault Refusal :=
  .next (s.writeV x s.dt)

/-- `Fx15` LD_DT_VX (R167). -/
def execLdDtVx (x : RegIdx) (s : State) : Host.Outcome State Fault Refusal :=
  .next { s with dt := s.readV x }

/-- `Fx18` LD_ST_VX (R168). -/
def execLdStVx (x : RegIdx) (s : State) : Host.Outcome State Fault Refusal :=
  .next { s with st := s.readV x }

end Sys2Proof.Machine
end

