-- ==== Sys2Proof/Machine/Step.lean ====
section
/-! DEFINITION. One cycle (40_cycle_dispatch.md R90): key sampling, fetch, advance, decode, execute, tick. -/

namespace Sys2Proof.Machine

/-- `Cycle()` (R90). An unassigned word selects no handler (R80, R95). -/
def step (s : State) : Host.Outcome State Fault Refusal :=
  match decodeWord s.beginCycle.ir with
  | .ok i => endCycle (exec i s.beginCycle)
  | .error _ => endCycle s.beginCycle.noHandler

/-- `s` with the instruction word `w`, numbered as spec/opcode_table.json numbers it, stored where `step` fetches: its high byte at
`PC`, its low byte at `PC + 1` (R52, R92). It stands for a program that the host loaded (R232; log 23). -/
def State.withFetchWord (s : State) (nbits w : Nat) : State :=
  s.storeBytes s.pc.toNat [hiByte (tableWord nbits w), loByte (tableWord nbits w)]

end Sys2Proof.Machine
end

