-- ==== Sys2Proof/Machine/HostPorts.lean ====
section
/-! DEFINITION. The host's side of the six ports (10_state.md R33): what it may do between cycles, and what it may read. `reset` is
`State.reset` or `State.resetWith`, `cycle` is `step`. -/

namespace Sys2Proof.Machine

/-- Why the host refuses an image (70_reset_and_hazards.md R232, 60_exceptions.md R217). It is no outcome of a cycle. -/
inductive LoadRefusal where
  /-- "is empty". -/
  | emptyImage
  /-- "`romStartAddress + fileSize` exceeds memory size". -/
  | oversizedImage
  deriving DecidableEq, Repr

/-- `rom_load(bytes)` (R232, R233): the image is copied verbatim from 0x200 up and nothing else changes; a refused image changes
nothing. -/
def romLoad (image : List Byte) (s : State) : Except LoadRefusal State :=
  if RomImage.isEmpty image then .error .emptyImage
  else if RomImage.isOversized image then .error .oversizedImage
  else .ok (s.storeBytes Config.romStart image)

/-- `Reset()` (R230) with the two OPEN parameters it depends on as arguments: `FONT_TABLE` (R3, R37; log 14) and where the random source
starts (R38: "seeded once at construction from a nondeterministic source"; log 17). -/
def State.resetWith (font : FontTable) (seed : Nat) : State :=
  { State.reset with mem := Memory.loadFont [] font, rng := { seed := seed, draws := 0, injected := [] } }

/-- The order of boot: reset, then the one ROM load (R233, R234). -/
def boot (font : FontTable) (seed : Nat) (image : List Byte) : Except LoadRefusal State :=
  romLoad image (State.resetWith font seed)

/-- `key_in` (R33, R91): the levels for one more coming cycle. -/
def presentKeys (k : Keys) (s : State) : State := { s with keyIn := s.keyIn ++ [k] }

/-- Key levels supplied as bytes: any nonzero byte is down (R27; log 10). -/
def keysOfBytes (bs : Vector Byte 16) : Keys := bs.map fun b => b != 0

/-- A fixed byte sequence put in front of the random source by a test bench (R213; log 17). -/
def injectRandom (bs : List Byte) (s : State) : State :=
  { s with rng := { s.rng with injected := s.rng.injected ++ bs } }

/-- `fb_out` (R33, R212): the cells row-major, 64 wide, the one in row `y`, column `x` at index `y*64 + x` (R28). -/
def fbOut (s : State) : List Bool := (List.range 2048).map fun k => s.fb.cell (k % 64) (k / 64)

/-- The numeric code of the critical error flag (R30, R201; log 12). -/
def cefCode : CriticalError → Nat
  | .noFault => 0
  | .stackUnderflow => 1
  | .stackOverflow => 2

/-- `cef_out` (R33, R202). -/
def cefOut (s : State) : Nat := cefCode s.cef

/-- The optional sound output (R210, decision D23; log 22): the level `ST != 0`, where the block has such an output. -/
def soundOut (s : State) : Option Bool := if Config.soundOutPresent then some (s.st != 0) else none

end Sys2Proof.Machine
end

