-- ==== Sys2Proof/Safety.lean ====
section
/-! DEFINITION. The terms in which claims speak: the invariant, the parts of the state an instruction may write, what a program can
see, the runs and the states that the legal moves of the two agents reach, and when a run has gone wrong. -/

namespace Sys2Proof.Machine

/-- The invariant: memory is in its canonical form (log 32). The other facts that R25, R30 and R20 call invariants are held by the
types (`SP` is at most 16, `CEF` has three values). -/
def State.Inv (s : State) : Prop := s.mem.wf

/-- "A model that wants a 'gone wrong' predicate for a run can use `CEF != 0`" (60_exceptions.md R202). -/
def State.GoneWrong (s : State) : Prop := s.cef ≠ .noFault

/-- The instruction the next cycle executes; none for an unassigned word (R80, R94). -/
def State.nextInstr (s : State) : Option Instr :=
  match decodeWord s.fetchWord with
  | .ok i => some i
  | .error _ => none

/-- The pieces of the state (R32), each as a handler may write it. -/
inductive Part where
  | mem | v | i | pc | stack | sp | dt | st | keys | fb | ir | cef | rng | keyIn
  deriving DecidableEq, Repr

/-- `t` agrees with `s` on every part that is not listed; memory agrees when every byte reads the same (R8: the frame rule). -/
structure AgreeOutside (parts : List Part) (s t : State) : Prop where
  mem : Part.mem ∉ parts → ∀ a, t.readByte a = s.readByte a
  v : Part.v ∉ parts → ∀ r, t.readV r = s.readV r
  i : Part.i ∉ parts → t.i = s.i
  pc : Part.pc ∉ parts → t.pc = s.pc
  stack : Part.stack ∉ parts → t.stack = s.stack
  sp : Part.sp ∉ parts → t.sp = s.sp
  dt : Part.dt ∉ parts → t.dt = s.dt
  st : Part.st ∉ parts → t.st = s.st
  keys : Part.keys ∉ parts → t.keys = s.keys
  fb : Part.fb ∉ parts → t.fb = s.fb
  ir : Part.ir ∉ parts → t.ir = s.ir
  cef : Part.cef ∉ parts → t.cef = s.cef
  rng : Part.rng ∉ parts → t.rng = s.rng
  keyIn : Part.keyIn ∉ parts → t.keyIn = s.keyIn

/-- Every word that `mask` and `bits` select (R85) decodes to the instruction built from the word's own fields. -/
def RowDecodes (mask bits : Word) (build : Word → Instr) : Prop :=
  ∀ w : Word, w &&& mask = bits → decodeWord w = .ok (build w)

/-- What no program can tell apart: two states that agree on everything but `ST`, `CEF`, `IR` and the call-stack slots at or above
`SP` (R25, R29, R30, R210). -/
structure SameToProgram (s t : State) : Prop where
  mem : s.mem = t.mem
  v : s.v = t.v
  i : s.i = t.i
  pc : s.pc = t.pc
  sp : s.sp = t.sp
  slots : ∀ k : Fin 16, k.val < s.sp.val → s.stack[k.val] = t.stack[k.val]
  dt : s.dt = t.dt
  keys : s.keys = t.keys
  fb : s.fb = t.fb
  rng : s.rng = t.rng
  keyIn : s.keyIn = t.keyIn

/-- Instruction `i` completes in every state and leaves `result` of the old state in `V[x]`; VF is not written unless `x` is VF. -/
def GivesRegister (i : Instr) (x : RegIdx) (result : State → Byte) : Prop :=
  ∀ s, ∃ t, exec i s = .next t ∧ t.readV x = result s ∧ (x ≠ vf → t.readV vf = s.readV vf)

/-- Instruction `i` completes in every state and leaves `target` of the state it runs in as the program counter; it writes no register,
VF included, and does not touch the stack. -/
def GivesPc (i : Instr) (target : State → Word) : Prop :=
  ∀ s, ∃ t, exec i s = .next t ∧ t.pc = target s ∧ t.v = s.v ∧ t.stack = s.stack ∧ t.sp = s.sp

/-- Instruction `i` completes in every state and writes only the listed parts (R8). -/
def WritesOnly (i : Instr) (parts : List Part) : Prop :=
  ∀ s, ∃ t, exec i s = .next t ∧ AgreeOutside parts s t

/-- Instruction `i` completes in every state and writes only the listed parts, and of the registers only those named (R8). -/
def WritesOnlyRegs (i : Instr) (dest : List RegIdx) (parts : List Part) : Prop :=
  ∀ s, ∃ t, exec i s = .next t ∧ AgreeOutside (.v :: parts) s t ∧ ∀ r, r ∉ dest → t.readV r = s.readV r

/-- A run of `k` cycles from `s` to `t` in which no cycle executes an instruction that `bad` names. -/
def RunAvoids (bad : Instr → Bool) : Nat → State → State → Prop
  | 0, s, t => t = s
  | k + 1, s, t =>
    (∀ i, s.nextInstr = some i → bad i = false) ∧ ∃ u, step s = .next u ∧ RunAvoids bad k u t

/-- The states that the legal moves reach (R33, R34, R234): boot first, with any font, random seed and image, then key levels and injected random bytes between cycles,
and whole cycles. A host that breaks the protocol has no move here (R249; log 29). -/
inductive Reachable : State → Prop where
  | boot {font : FontTable} {seed : Nat} {image : List Byte} {s : State} : boot font seed image = .ok s → Reachable s
  | keys {s : State} (k : Keys) : Reachable s → Reachable (presentKeys k s)
  | random {s : State} (bs : List Byte) : Reachable s → Reachable (injectRandom bs s)
  | cycle {s t : State} : Reachable s → step s = .next t → Reachable t

end Sys2Proof.Machine
end

