-- ==== Sys2Proof/Certificates/Slice0/Obligations.lean ====
section
/-! DEFINITION. The statements for the provers. Each docstring names the rule of spec/ it formalises; where a clause rests on one of
the spec's own decisions D<n> or on a choice of the model, the docstring says so and names the log entry. -/

open Sys2Proof Sys2Proof.Machine

/-! ### Encoding -/

/-- Decoding the canonical word of any instruction gives it back with every operand, and so does decoding its two bytes, whatever
follows them (R52, R70, R79, R85; the ignored bits are decisions D3 and D4, logs 3 and 4). -/
def Obligations.DecodeOfEncode : Prop :=
  ∀ i : Instr, decodeWord (encode i) = .ok i ∧ ∀ rest, decodeBytes (encodeBytes i ++ rest) = .ok (i, rest)

/-- Encoding what a word decodes to gives the word with its ignored bits cleared and every other bit kept: bits 11:8 in family 0,
bits 3:0 in families 5 and 9, none elsewhere (R79; decisions D3 and D4, logs 3 and 4). -/
def Obligations.EncodeOfDecodeIsCanonical : Prop :=
  ∀ (w : Word) (i : Instr), decodeWord w = .ok i →
    encode i =
      if w.extractLsb' 12 4 = 0x0 then w &&& 0xF0FF
      else if w.extractLsb' 12 4 = 0x5 ∨ w.extractLsb' 12 4 = 0x9 then w &&& 0xFFF0
      else w

/-- The decoder and the opcode map agree on every word: what a word decodes to bears the label of a row that the word selects, a word
is rejected exactly when it selects no row, and no word selects two rows (R74, R85). -/
def Obligations.DecoderFollowsOpcodeMap : Prop :=
  ∀ w : Word,
    (∀ i, decodeWord w = .ok i → ∃ row ∈ opcodeMap, row.mnemonic = i.mnemonic ∧ w &&& row.mask = row.matchBits) ∧
    ((∃ e, decodeWord w = .error e) ↔ ∀ row ∈ opcodeMap, w &&& row.mask ≠ row.matchBits) ∧
    (∀ row ∈ opcodeMap, ∀ row' ∈ opcodeMap, w &&& row.mask = row.matchBits → w &&& row'.mask = row'.matchBits → row = row')

/-- The unassigned words are those of R81: family 0 but for low bytes 0xE0 and 0xEE, family 8 with low nibble 8 to 0xD or 0xF, family E
but for 0x9E and 0xA1, family F but for its nine keys (decision D3, log 3). -/
def Obligations.UnassignedWordsAreThese : Prop :=
  ∀ w : Word,
    (∃ e, decodeWord w = .error e) ↔
      (w.extractLsb' 12 4 = 0x0 ∧ w.extractLsb' 0 8 ∉ [0xE0, 0xEE]) ∨
      (w.extractLsb' 12 4 = 0x8 ∧ w.extractLsb' 0 4 ∈ [0x8, 0x9, 0xA, 0xB, 0xC, 0xD, 0xF]) ∨
      (w.extractLsb' 12 4 = 0xE ∧ w.extractLsb' 0 8 ∉ [0x9E, 0xA1]) ∨
      (w.extractLsb' 12 4 = 0xF ∧ w.extractLsb' 0 8 ∉ [0x07, 0x0A, 0x15, 0x18, 0x1E, 0x29, 0x33, 0x55, 0x65])

/-- One word of each family, written out from the spec's encoding, decodes to the instruction it stands for (R71, R85). A sanity
check. -/
def Obligations.SampleWordsDecode : Prop :=
  decodeWord 0x00EE = .ok .ret ∧ decodeWord 0x1204 = .ok (.jp 0x204) ∧ decodeWord 0x3A42 = .ok (.seImm 0xA 0x42) ∧
  decodeWord 0x5340 = .ok (.seReg 3 4) ∧ decodeWord 0x8AB5 = .ok (.sub 0xA 0xB) ∧ decodeWord 0xA123 = .ok (.ldI 0x123) ∧
  decodeWord 0xC30F = .ok (.rnd 3 0x0F) ∧ decodeWord 0xD7A5 = .ok (.drw 7 0xA 5) ∧ decodeWord 0xE49E = .ok (.skp 4) ∧
  decodeWord 0xF265 = .ok (.ldRegs 2) ∧ decodeWord 0x8AB8 = .error (.unassigned8 8)

/-! ### The cycle -/

/-- R52: whatever the state, the instruction word of a cycle is the byte at `PC` as the high byte and the byte at `PC + 1` as the low
byte; nothing switches the order. -/
def Obligations.FetchIsBigEndian : Prop :=
  ∀ s t, step s = .next t →
    t.ir.toNat = (s.readByte s.pc.toNat).toNat * 256 + (s.readByte (s.pc.toNat + 1)).toNat

/-- A step runs the decoded instruction (R90): where the two bytes at `PC` decode to `i`, the step is `exec i` of the state with the
host's key levels sampled, `IR` loaded and `PC` advanced by 2, followed by the tick of both timers. (The 16-bit wrap of `PC + 2` is
decision D2, log 2; the queue `keyIn` is the model's, log 18.) -/
def Obligations.StepRunsDecodedInstruction : Prop :=
  ∀ (s t : State) (i : Instr) (w : Word),
    w = wordOfBytes (s.readByte s.pc.toNat) (s.readByte (s.pc.toNat + 1)) → decodeWord w = .ok i →
    exec i { s with keys := s.keyIn.head?.getD s.keys, keyIn := s.keyIn.tail, ir := w, pc := s.pc + 2 } = .next t →
    step s = .next { t with dt := if t.dt = 0 then 0 else t.dt - 1, st := if t.st = 0 then 0 else t.st - 1 }

/-- An unassigned word is a no-op (R80): the cycle advances `PC` by 2 and ticks the timers, and nothing else changes but what the fetch
and the host's key write change. (The 16-bit wrap is decision D2, log 2.) -/
def Obligations.UnassignedWordOnlyAdvances : Prop :=
  ∀ (s : State) (w : Word) (e : DecodeReject),
    w = wordOfBytes (s.readByte s.pc.toNat) (s.readByte (s.pc.toNat + 1)) → decodeWord w = .error e →
    step s = .next { s with
      keys := s.keyIn.head?.getD s.keys, keyIn := s.keyIn.tail, ir := w, pc := s.pc + 2,
      dt := if s.dt = 0 then 0 else s.dt - 1, st := if s.st = 0 then 0 else s.st - 1 }

/-- Every instruction completes in every state: no handler faults and none is refused (R95, R200). -/
def Obligations.EveryHandlerCompletes : Prop :=
  ∀ (i : Instr) (s : State), ∃ t, exec i s = .next t

/-- No halt: every cycle request, from any state, runs a whole cycle and leaves a next state (R101, R200). -/
def Obligations.EveryCycleCompletes : Prop :=
  ∀ s : State, ∃ t, step s = .next t

/-- R96: the tick. At the end of every cycle each timer is one less than what the handler left, floored at zero: a cycle that sets a
timer to `v` leaves `v - 1` (0 for 0), every other cycle leaves one less than before, and `Fx07` reads `DT` before the tick of its own
cycle. The two timers are independent. -/
def Obligations.TimersTickOncePerCycle : Prop :=
  ∀ s t, step s = .next t →
    (∀ x, s.nextInstr = some (.ldDtVx x) → t.dt.toNat = (s.readV x).toNat - 1) ∧
    ((∀ x, s.nextInstr ≠ some (.ldDtVx x)) → t.dt.toNat = s.dt.toNat - 1) ∧
    (∀ x, s.nextInstr = some (.ldStVx x) → t.st.toNat = (s.readV x).toNat - 1) ∧
    ((∀ x, s.nextInstr ≠ some (.ldStVx x)) → t.st.toNat = s.st.toNat - 1) ∧
    (∀ x, s.nextInstr = some (.ldVxDt x) → t.readV x = s.dt)

/-- The complete list of what a cycle may do to `PC` (R24, R93; 90_conflicts.md C6): it advances by 2 except that a jump, call or
return overwrites it, a skip may add 2 more, and `Fx0A` may go back to itself. (The 16-bit wrap is decision D2, log 2.) -/
def Obligations.PcAdvancesByTwoExcept : Prop :=
  ∀ s t, step s = .next t →
    t.pc = s.pc + 2 ∨
    (∃ nnn, s.nextInstr = some .ret ∨ s.nextInstr = some (.jp nnn) ∨ s.nextInstr = some (.call nnn) ∨ s.nextInstr = some (.jpV0 nnn)) ∨
    (t.pc = s.pc + 4 ∧ ∃ x y kk, s.nextInstr = some (.seImm x kk) ∨ s.nextInstr = some (.sneImm x kk) ∨
      s.nextInstr = some (.seReg x y) ∨ s.nextInstr = some (.sneReg x y) ∨ s.nextInstr = some (.skp x) ∨ s.nextInstr = some (.sknp x)) ∨
    (t.pc = s.pc ∧ ∃ x, s.nextInstr = some (.ldVxK x))

/-- The core never writes `KEY`: after a cycle it holds what the host presented for that cycle, or its old content when the host
presented nothing (R27, R91; the queue `keyIn` is the model's, log 18). -/
def Obligations.KeysComeFromTheHost : Prop :=
  ∀ s t, step s = .next t →
    t.keyIn = s.keyIn.tail ∧ (s.keyIn = [] → t.keys = s.keys) ∧ ∀ k rest, s.keyIn = k :: rest → t.keys = k

/-- Who may write what (R20, R23, R25, R28, R31, R213): memory only `Fx33` and `Fx55`; `I` only `Annn`, `Fx1E`, `Fx29`; the stack and
its pointer and the error flag only `2nnn` and `00EE`; the framebuffer only `00E0` and `Dxyn`; the random source only `Cxkk`. -/
def Obligations.OnlyOwnersWriteState : Prop :=
  ∀ (i : Instr) (s t : State), exec i s = .next t →
    (t.mem = s.mem ∨ ∃ x, i = .ldB x ∨ i = .stRegs x) ∧
    (t.i = s.i ∨ ∃ x nnn, i = .ldI nnn ∨ i = .addI x ∨ i = .ldF x) ∧
    ((t.stack = s.stack ∧ t.sp = s.sp ∧ t.cef = s.cef) ∨ i = .ret ∨ ∃ nnn, i = .call nnn) ∧
    (t.fb = s.fb ∨ i = .cls ∨ ∃ x y n, i = .drw x y n) ∧
    (t.rng = s.rng ∨ ∃ x kk, i = .rnd x kk)

/-! ### The error flag -/

/-- `CEF` after a cycle (R201, R202): underflow when `00EE` ran on an empty stack, overflow when `2nnn` ran on a full one, unchanged in
every other cycle. -/
def Obligations.ErrorFlagRecordsStackFaultsOnly : Prop :=
  ∀ s t, step s = .next t →
    (s.nextInstr = some .ret → s.sp = 0 → t.cef = .stackUnderflow) ∧
    (∀ nnn, s.nextInstr = some (.call nnn) → s.sp = 16 → t.cef = .stackOverflow) ∧
    ((s.nextInstr = some .ret → s.sp ≠ 0) → (∀ nnn, s.nextInstr = some (.call nnn) → s.sp ≠ 16) → t.cef = s.cef)

/-- Nothing ever writes `none` to `CEF` after reset (R202): along every run, of whatever length and from whatever state, a run that has
gone wrong stays so. -/
def Obligations.GoneWrongStaysGoneWrong : Prop :=
  ∀ (k : Nat) (s t : State), Host.Core.run Sys2Proof.core k s = .next t → s.GoneWrong → t.GoneWrong

/-! ### Invariants and whole runs -/

/-- The reset state meets the invariant, whatever the font table and the random seed (the canonical form of memory is the model's,
log 32). -/
def Obligations.ResetMeetsInvariant : Prop :=
  State.reset.Inv ∧ ∀ font seed, (State.resetWith font seed).Inv

/-- Every step from a state whose memory is in canonical form leaves one (the form is the model's, log 32; memory is R20, R51). -/
def Obligations.StepKeepsInvariant : Prop :=
  ∀ s t : State, s.Inv → step s = .next t → t.Inv

/-- Every state that the legal moves of host and core reach, from any boot, has its memory in canonical form, and the next cycle from it
completes (R33, R34, R101; log 32). -/
def Obligations.ReachableStatesAreSafe : Prop :=
  ∀ s : State, Reachable s → s.Inv ∧ ∃ t, step s = .next t

/-- What no program can see: two states that agree on all but `ST`, `CEF`, `IR` and the call-stack slots at or above `SP` step to two
states that again agree on all but these, and both steps complete (R25: a popped slot is never read; R29: `IR` is not persisted; R202:
no instruction reads `CEF`; R26, R210: no instruction reads `ST`). -/
def Obligations.UnobservableStateInfluencesNothing : Prop :=
  ∀ s t : State, SameToProgram s t → ∃ s' t', step s = .next s' ∧ step t = .next t' ∧ SameToProgram s' t'

/-- R241: when `DT` is set to `v` and `Fx07` runs `k + 1` cycles later with no other `Fx15` between, it reads `v - (k + 1)`, or 0 once
the count has run out, whatever the program does in between. -/
def Obligations.DelayTimerReadsElapsedCycles : Prop :=
  ∀ (k : Nat) (x y : RegIdx) (s u t w : State),
    s.nextInstr = some (.ldDtVx x) → step s = .next u →
    RunAvoids (fun i => i matches .ldDtVx _) k u t →
    t.nextInstr = some (.ldVxDt y) → step t = .next w →
    (w.readV y).toNat = (s.readV x).toNat - (k + 1)

/-- A jump to itself leaves everything unchanged but the timers, and what the fetch and the host's key write change (R101, R111;
decision D24 makes it the end of a program, the model gives it no meaning of its own). -/
def Obligations.SelfJumpOnlyTicks : Prop :=
  ∀ (s : State) (nnn : BitVec 12), s.nextInstr = some (.jp nnn) → s.pc = nnn.zeroExtend 16 →
    step s = .next { s with
      keys := s.keyIn.head?.getD s.keys, keyIn := s.keyIn.tail, ir := s.fetchWord,
      dt := if s.dt = 0 then 0 else s.dt - 1, st := if s.st = 0 then 0 else s.st - 1 }

/-- A key wait with no key down is a whole cycle whose only net effect is the tick (R187, R242). -/
def Obligations.KeyWaitOnlyTicks : Prop :=
  ∀ (s : State) (x : RegIdx), s.nextInstr = some (.ldVxK x) →
    (∀ k : KeyIdx, (s.keyIn.head?.getD s.keys)[k] = false) →
    step s = .next { s with
      keys := s.keyIn.head?.getD s.keys, keyIn := s.keyIn.tail, ir := s.fetchWord,
      dt := if s.dt = 0 then 0 else s.dt - 1, st := if s.st = 0 then 0 else s.st - 1 }

/-- A store is seen by the next fetch (R53, R64, R245): after `Fx55` the word fetched at `I + k` is made of `V[k]`, high, and
`V[k + 1]`, low. The premise is the invariant. (Addresses wrap at the port by decision D1, log 1.) -/
def Obligations.StoredRegistersAreFetched : Prop :=
  ∀ (s t : State) (x : RegIdx) (k : Fin 15), s.Inv → exec (.stRegs x) s = .next t →
    ({ t with pc := s.i + BitVec.ofNat 16 k.val } : State).fetchWord =
      wordOfBytes (s.readV k.castSucc) (s.readV k.succ)

/-! ### Registers: loads, logic, arithmetic -/

/-- R130 to R135: the six instructions of the register file that write no flag. Each word of the row decodes to the instruction with
the fields of the word; the instruction completes in every state; `V[x]` gets `kk`, `V[x] + kk` modulo 256, `V[y]`, or the bitwise or,
and, exclusive or of `V[x]` and `V[y]`; VF is not written unless it is `V[x]`. -/
def Obligations.RegisterLoadsAndLogic : Prop :=
  (RowDecodes 0xF000 0x6000 (fun w => .ldImm (xOf w) (w.extractLsb' 0 8)) ∧
    ∀ x kk, GivesRegister (.ldImm x kk) x (fun _ => kk)) ∧
  (RowDecodes 0xF000 0x7000 (fun w => .addImm (xOf w) (w.extractLsb' 0 8)) ∧
    ∀ x kk, GivesRegister (.addImm x kk) x (fun s => BitVec.ofNat 8 (((s.readV x).toNat + kk.toNat) % 256))) ∧
  (RowDecodes 0xF00F 0x8000 (fun w => .ldReg (xOf w) (yOf w)) ∧
    ∀ x y, GivesRegister (.ldReg x y) x (fun s => s.readV y)) ∧
  (RowDecodes 0xF00F 0x8001 (fun w => .orReg (xOf w) (yOf w)) ∧
    ∀ x y, GivesRegister (.orReg x y) x (fun s => s.readV x ||| s.readV y)) ∧
  (RowDecodes 0xF00F 0x8002 (fun w => .andReg (xOf w) (yOf w)) ∧
    ∀ x y, GivesRegister (.andReg x y) x (fun s => s.readV x &&& s.readV y)) ∧
  (RowDecodes 0xF00F 0x8003 (fun w => .xorReg (xOf w) (yOf w)) ∧
    ∀ x y, GivesRegister (.xorReg x y) x (fun s => s.readV x ^^^ s.readV y))

/-- `8xy4` (R136, R141): the sum is formed first; VF is 1 exactly when it is above 255, and is overwritten by the result when `x` is VF
(the order of the two writes is decision D6, log 6). -/
def Obligations.AddWithCarry : Prop :=
  ∀ (s : State) (x y : RegIdx), ∃ t, exec (.addReg x y) s = .next t ∧
    (t.readV x).toNat = ((s.readV x).toNat + (s.readV y).toNat) % 256 ∧
    (x ≠ 15 → t.readV 15 = if (s.readV x).toNat + (s.readV y).toNat > 255 then 1 else 0)

/-- `8xy5` and `8xy7` in all four columns of the table of R141 (R137, R139): the flag is the strict comparison (equal operands give 0),
written before the difference is formed from the registers as they then are (decision D6, log 6). `f` is the flag byte written. -/
def Obligations.SubtractWithFlag : Prop :=
  ∀ (s : State) (x y : RegIdx),
    (∃ t f, exec (.sub x y) s = .next t ∧ f = (if s.readV x > s.readV y then (1 : Byte) else 0) ∧
      (x ≠ 15 → y ≠ 15 → t.readV x = s.readV x - s.readV y ∧ t.readV 15 = f) ∧
      (x = 15 → y ≠ 15 → t.readV 15 = f - s.readV y) ∧
      (x ≠ 15 → y = 15 → t.readV x = s.readV x - f ∧ t.readV 15 = f) ∧
      (x = 15 → y = 15 → t.readV 15 = 0)) ∧
    (∃ t f, exec (.subn x y) s = .next t ∧ f = (if s.readV y > s.readV x then (1 : Byte) else 0) ∧
      (x ≠ 15 → y ≠ 15 → t.readV x = s.readV y - s.readV x ∧ t.readV 15 = f) ∧
      (x = 15 → y ≠ 15 → t.readV 15 = s.readV y - f) ∧
      (x ≠ 15 → y = 15 → t.readV x = f - s.readV x ∧ t.readV 15 = f) ∧
      (x = 15 → y = 15 → t.readV 15 = 0))

/-- `8xy6` and `8xyE` (R138, R140, R141): `V[x]` is shifted in place by one, whatever `y` is (decision D5, log 5), and VF is the bit
shifted out; with `x` = VF the result is 0 for the right shift and twice the top bit for the left (decision D6, log 6). -/
def Obligations.ShiftWithFlag : Prop :=
  ∀ (s : State) (x y : RegIdx),
    (∃ t, exec (.shr x y) s = .next t ∧
      (x ≠ 15 → (t.readV x).toNat = (s.readV x).toNat / 2 ∧ (t.readV 15).toNat = (s.readV x).toNat % 2) ∧
      (x = 15 → t.readV 15 = 0)) ∧
    (∃ t, exec (.shl x y) s = .next t ∧
      (x ≠ 15 → (t.readV x).toNat = (s.readV x).toNat * 2 % 256 ∧ (t.readV 15).toNat = (s.readV x).toNat / 128) ∧
      (x = 15 → (t.readV 15).toNat = (s.readV 15).toNat / 128 * 2))

/-! ### Control flow and skips -/

/-- R111 and R113: every word of family 1 or B decodes with its 12-bit address; JP leaves `nnn`, JP_V0 leaves the full sum `nnn + V0`,
not reduced to 12 bits, in `PC`; both complete in every state, write no register and do not touch the stack. -/
def Obligations.JumpTargets : Prop :=
  (RowDecodes 0xF000 0x1000 (fun w => .jp (w.extractLsb' 0 12)) ∧
    ∀ nnn, GivesPc (.jp nnn) (fun _ => nnn.zeroExtend 16)) ∧
  (RowDecodes 0xF000 0xB000 (fun w => .jpV0 (w.extractLsb' 0 12)) ∧
    ∀ (nnn : BitVec 12) (s : State), ∃ t, exec (.jpV0 nnn) s = .next t ∧
      t.pc.toNat = nnn.toNat + (s.readV 0).toNat ∧ t.v = s.v ∧ t.stack = s.stack ∧ t.sp = s.sp)

/-- R112 with `Push` of R98: every word of family 2 decodes with its address; CALL completes in every state and jumps to `nnn`; with room
it stores the `PC` it runs with (the address of the next instruction) in `STACK[SP]`, increments `SP` and leaves the other slots and
`CEF`; on a full stack it records an overflow and leaves the stack and `SP`. No register is written. -/
def Obligations.CallPushesReturnAddress : Prop :=
  RowDecodes 0xF000 0x2000 (fun w => .call (w.extractLsb' 0 12)) ∧
  ∀ (s : State) (nnn : BitVec 12), ∃ t, exec (.call nnn) s = .next t ∧ t.pc = nnn.zeroExtend 16 ∧ t.v = s.v ∧
    (∀ k : Fin 16, k.val = s.sp.val →
      t.stack[k] = s.pc ∧ t.sp.val = s.sp.val + 1 ∧ t.cef = s.cef ∧ ∀ j : Fin 16, j ≠ k → t.stack[j] = s.stack[j]) ∧
    (s.sp = 16 → t.stack = s.stack ∧ t.sp = s.sp ∧ t.cef = .stackOverflow)

/-- R99, `Pop`, as `00EE` uses it (R110): on an empty stack an underflow is recorded, `SP` stays 0 and `PC` becomes 0x0000; otherwise `SP`
is decremented, `PC` gets the slot at the new pointer, and `CEF` keeps. The slots keep their content in both cases. -/
def Obligations.ReturnPopsAddress : Prop :=
  ∀ s : State, ∃ t, exec .ret s = .next t ∧ t.stack = s.stack ∧
    (s.sp = 0 → t.sp = 0 ∧ t.pc = 0x0000 ∧ t.cef = .stackUnderflow) ∧
    (∀ k : Fin 16, k.val + 1 = s.sp.val → t.sp.val = k.val ∧ t.pc = s.stack[k] ∧ t.cef = s.cef)

/-- The stack is last-in first-out (R100): two calls on a stack with room for both, then two returns, come back to the `PC` of the second
call and then to that of the first, and leave `SP` as it was and `CEF` untouched, whatever ran in between that kept the stack. -/
def Obligations.NestedCallsReturnInOrder : Prop :=
  ∀ (s a b b' c c' d : State) (m n : BitVec 12), s.sp.val + 2 ≤ 16 →
    exec (.call m) s = .next a → exec (.call n) a = .next b →
    b'.stack = b.stack → b'.sp = b.sp → b'.cef = b.cef → exec .ret b' = .next c →
    c'.stack = c.stack → c'.sp = c.sp → c'.cef = c.cef → exec .ret c' = .next d →
    c.pc = a.pc ∧ d.pc = s.pc ∧ d.sp = s.sp ∧ d.cef = s.cef

/-- The four register-compare skips (R97, R120 to R123): `PC` moves by 2 more exactly when the condition holds; no register and no
stack slot is written (the 16-bit wrap is decision D2, log 2). -/
def Obligations.SkipsOnCompare : Prop :=
  ∀ (x y : RegIdx) (kk : Byte),
    GivesPc (.seImm x kk) (fun s => if s.readV x = kk then s.pc + 2 else s.pc) ∧
    GivesPc (.sneImm x kk) (fun s => if s.readV x ≠ kk then s.pc + 2 else s.pc) ∧
    GivesPc (.seReg x y) (fun s => if s.readV x = s.readV y then s.pc + 2 else s.pc) ∧
    GivesPc (.sneReg x y) (fun s => if s.readV x ≠ s.readV y then s.pc + 2 else s.pc)

/-! ### Keypad -/

/-- The two key skips (R97, R185, R186, R188): the key is the one that the low four bits of `V[x]` number (decision D9, log 9), and
exactly one of the two instructions skips. -/
def Obligations.SkipsOnKey : Prop :=
  ∀ x : RegIdx,
    GivesPc (.skp x) (fun s => if s.keys[Fin.ofNat 16 (s.readV x).toNat] = true then s.pc + 2 else s.pc) ∧
    GivesPc (.sknp x) (fun s => if s.keys[Fin.ofNat 16 (s.readV x).toNat] = false then s.pc + 2 else s.pc)

/-- The key wait (R187): if some key is down, the least such key (decision D8, log 8) goes to `V[x]` and `PC` stays advanced; if none is,
`V[x]` stays and `PC` goes back by 2 (the wrap is decision D2, log 2). -/
def Obligations.KeyWaitStoresLeastKey : Prop :=
  ∀ (s : State) (x : RegIdx), ∃ t, exec (.ldVxK x) s = .next t ∧
    (∀ k : KeyIdx, s.keys[k] = true → (∀ j : KeyIdx, j < k → s.keys[j] = false) →
      (t.readV x).toNat = k.val ∧ t.pc = s.pc) ∧
    ((∀ k : KeyIdx, s.keys[k] = false) → t.readV x = s.readV x ∧ t.pc = s.pc - 2)

/-! ### Index register and memory -/

/-- R150: every word of family A decodes with its 12-bit value, and LD_I completes in every state with that value, zero-extended, in
`I`, and no register written. -/
def Obligations.LoadIndexImmediate : Prop :=
  RowDecodes 0xF000 0xA000 (fun w => .ldI (w.extractLsb' 0 12)) ∧
  ∀ (nnn : BitVec 12) (s : State), ∃ t, exec (.ldI nnn) s = .next t ∧ t.i.toNat = nnn.toNat ∧ t.v = s.v

/-- `Fx1E` and `Fx29` (R151, R152): `I + V[x]` modulo 65536 (decision D2, log 2), and 0x50 + 5 * `V[x]` of the whole register value
(decision D22, log 21). VF keeps. -/
def Obligations.IndexArithmetic : Prop :=
  ∀ (s : State) (x : RegIdx),
    (∃ t, exec (.addI x) s = .next t ∧ t.i.toNat = (s.i.toNat + (s.readV x).toNat) % 65536 ∧ t.readV 15 = s.readV 15) ∧
    (∃ t, exec (.ldF x) s = .next t ∧ t.i.toNat = 0x50 + 5 * (s.readV x).toNat ∧ t.readV 15 = s.readV 15)

/-- `Fx33` (R153): the hundreds, tens and ones digit of `V[x]` are in the bytes at `I`, `I + 1`, `I + 2`. The premise is the invariant.
(Addresses wrap at the port by decision D1, log 1.) -/
def Obligations.DecimalDigitsAreStored : Prop :=
  ∀ (s : State) (x : RegIdx), s.Inv → ∃ t, exec (.ldB x) s = .next t ∧
    (t.readByte (s.dataAddr 0)).toNat = (s.readV x).toNat / 100 ∧
    (t.readByte (s.dataAddr 1)).toNat = (s.readV x).toNat / 10 % 10 ∧
    (t.readByte (s.dataAddr 2)).toNat = (s.readV x).toNat % 10

/-- `Fx55` and `Fx65` (R154, R155): all sixteen registers move, register `r` to or from the byte at `I + r`, whatever `x` is (decision
D7, log 7; the wrap of addresses is D1, log 1). The premise of the store is the invariant. -/
def Obligations.RegisterFileMoves : Prop :=
  ∀ (s : State) (x : RegIdx),
    (s.Inv → ∃ t, exec (.stRegs x) s = .next t ∧ ∀ r : RegIdx, t.readByte (s.dataAddr r.val) = s.readV r) ∧
    (∃ t, exec (.ldRegs x) s = .next t ∧ ∀ r : RegIdx, t.readV r = s.readByte (s.dataAddr r.val))

/-- `Fx55` followed by `Fx65` with the same `I` restores every register, whatever the registers held in between (R155; decision D7,
log 7). -/
def Obligations.StoreThenLoadRestoresRegisters : Prop :=
  ∀ (s t t' u : State) (x y : RegIdx), s.Inv → exec (.stRegs x) s = .next t →
    t'.mem = t.mem → t'.i = s.i → exec (.ldRegs y) t' = .next u → ∀ r, u.readV r = s.readV r

/-! ### Random byte and timers -/

/-- `Cxkk` (R165, R213): exactly one byte is consumed, the first injected one or else the source's next (a FREE VALUE, log 17), and
`V[x]` is that byte and `kk`; so every bit that is 0 in `kk` is 0 in `V[x]`. It holds for every byte. -/
def Obligations.RandomByteUnderMask : Prop :=
  ∀ (s : State) (x : RegIdx) (kk : Byte), ∃ t, exec (.rnd x kk) s = .next t ∧
    (∀ b rest, s.rng.injected = b :: rest → t.readV x = b &&& kk ∧ t.rng = { s.rng with injected := rest }) ∧
    (s.rng.injected = [] → t.readV x = Config.randomByte s.rng.seed s.rng.draws &&& kk ∧
      t.rng = { s.rng with draws := s.rng.draws + 1 }) ∧
    t.readV x &&& ~~~kk = 0

/-- The handlers of R166, R167 and R168 move a byte between `V[x]` and a timer, `ST` is not affected by `Fx15` nor `DT` by `Fx18`, and the
words of the three rows decode to them; what the tick of the same cycle then does is TimersTickOncePerCycle. -/
def Obligations.TimerMoves : Prop :=
  (RowDecodes 0xF0FF 0xF007 (fun w => .ldVxDt (xOf w)) ∧ ∀ x, GivesRegister (.ldVxDt x) x (fun s => s.dt)) ∧
  (RowDecodes 0xF0FF 0xF015 (fun w => .ldDtVx (xOf w)) ∧
    ∀ (s : State) (x : RegIdx), ∃ t, exec (.ldDtVx x) s = .next t ∧ t.dt = s.readV x ∧ t.st = s.st) ∧
  (RowDecodes 0xF0FF 0xF018 (fun w => .ldStVx (xOf w)) ∧
    ∀ (s : State) (x : RegIdx), ∃ t, exec (.ldStVx x) s = .next t ∧ t.st = s.readV x ∧ t.dt = s.dt)

/-! ### Display -/

/-- `00E0` (R175): every cell is 0 afterwards, and nothing but the framebuffer changes (which words decode to it is decision D3, log 3;
the frame is decision D20, log 19). -/
def Obligations.ClearScreen : Prop :=
  ∀ s : State, ∃ t, exec .cls s = .next t ∧ AgreeOutside [.fb] s t ∧
    ∀ cx cy, cx < 64 → cy < 32 → t.fb.cell cx cy = false

/-- `Dxyn` (R176), for every sprite, position and framebuffer: a cell changes exactly when a 1 bit of the sprite falls on it, row `r` of
the sprite being the byte at `I + r` and column `c` its bit `7 - c` (decision D15, log 15), both axes wrapping; VF is 1 if some lit cell
became dark, and 0 otherwise, also for `n` = 0; the coordinates are the register values before VF is written (decision D16, log 16). -/
def Obligations.SpriteTogglesItsCells : Prop :=
  ∀ (s : State) (x y : RegIdx) (n : Nibble), ∃ t, exec (.drw x y n) s = .next t ∧
    (∀ cx cy, cx < 64 → cy < 32 →
      (t.fb.cell cx cy ≠ s.fb.cell cx cy ↔
        ∃ r c, r < n.toNat ∧ c < 8 ∧ ((s.readV x).toNat + c) % 64 = cx ∧ ((s.readV y).toNat + r) % 32 = cy ∧
          (s.readByte (s.dataAddr r)).getLsbD (7 - c) = true)) ∧
    ((∃ cx cy, cx < 64 ∧ cy < 32 ∧ s.fb.cell cx cy = true ∧ t.fb.cell cx cy = false) → t.readV 15 = 1) ∧
    ((¬ ∃ cx cy, cx < 64 ∧ cy < 32 ∧ s.fb.cell cx cy = true ∧ t.fb.cell cx cy = false) → t.readV 15 = 0)

/-- Drawing the same sprite twice at the same place restores the framebuffer (R176). Onto a dark screen the first draw reports no
collision and the second reports one exactly when the sprite has a 1 bit. Both coordinates are taken from registers other than VF,
which the first draw writes. -/
def Obligations.DrawingTwiceRestores : Prop :=
  ∀ (s t u : State) (x y : RegIdx) (n : Nibble), x ≠ 15 → y ≠ 15 →
    exec (.drw x y n) s = .next t → exec (.drw x y n) t = .next u →
    u.fb = s.fb ∧
    (s.fb = .dark → t.readV 15 = 0 ∧
      u.readV 15 = if ∃ r : Fin 15, r.val < n.toNat ∧ s.readByte (s.dataAddr r.val) ≠ 0 then 1 else 0)

/-! ### Frames (R8; the frame rule is decision D20, log 19) -/

/-- The instructions that write one register and nothing else: 6xkk, 7xkk, 8xy0 to 8xy3, Fx07. No memory is stored to. -/
def Obligations.FrameOneRegister : Prop :=
  ∀ (x y : RegIdx) (kk : Byte),
    WritesOnlyRegs (.ldImm x kk) [x] [] ∧ WritesOnlyRegs (.addImm x kk) [x] [] ∧ WritesOnlyRegs (.ldReg x y) [x] [] ∧
    WritesOnlyRegs (.orReg x y) [x] [] ∧ WritesOnlyRegs (.andReg x y) [x] [] ∧ WritesOnlyRegs (.xorReg x y) [x] [] ∧
    WritesOnlyRegs (.ldVxDt x) [x] []

/-- The five flag-writing instructions write `V[x]` and VF and nothing else (R22). No memory is stored to. -/
def Obligations.FrameRegisterAndFlag : Prop :=
  ∀ x y : RegIdx,
    WritesOnlyRegs (.addReg x y) [x, 15] [] ∧ WritesOnlyRegs (.sub x y) [x, 15] [] ∧ WritesOnlyRegs (.shr x y) [x, 15] [] ∧
    WritesOnlyRegs (.subn x y) [x, 15] [] ∧ WritesOnlyRegs (.shl x y) [x, 15] []

/-- The jumps and the six skips write `PC` and nothing else. No memory is stored to. -/
def Obligations.FrameProgramCounter : Prop :=
  ∀ (x y : RegIdx) (kk : Byte) (nnn : BitVec 12),
    WritesOnly (.jp nnn) [.pc] ∧ WritesOnly (.jpV0 nnn) [.pc] ∧ WritesOnly (.seImm x kk) [.pc] ∧ WritesOnly (.sneImm x kk) [.pc] ∧
    WritesOnly (.seReg x y) [.pc] ∧ WritesOnly (.sneReg x y) [.pc] ∧ WritesOnly (.skp x) [.pc] ∧ WritesOnly (.sknp x) [.pc]

/-- The call and the return write `PC`, the stack, its pointer and the error flag, and nothing else; the return writes no slot. The stack
is not in memory (R50), so no byte of memory is stored to. -/
def Obligations.FrameCallAndReturn : Prop :=
  (∀ nnn, WritesOnly (.call nnn) [.pc, .stack, .sp, .cef]) ∧ WritesOnly .ret [.pc, .sp, .cef]

/-- The writers of `I` write `I` only, `Fx15` writes `DT` only, `Fx18` writes `ST` only. No memory is stored to. -/
def Obligations.FrameIndexAndTimers : Prop :=
  ∀ (x : RegIdx) (nnn : BitVec 12),
    WritesOnly (.ldI nnn) [.i] ∧ WritesOnly (.addI x) [.i] ∧ WritesOnly (.ldF x) [.i] ∧
    WritesOnly (.ldDtVx x) [.dt] ∧ WritesOnly (.ldStVx x) [.st]

/-- `Fx33` and `Fx55` write memory only, and of memory only the three and the sixteen bytes from the data address up: every byte whose
address at the port is none of theirs reads as before. The premise is the invariant. -/
def Obligations.FrameStores : Prop :=
  ∀ (s : State) (x : RegIdx), s.Inv →
    (∃ t, exec (.ldB x) s = .next t ∧ AgreeOutside [.mem] s t ∧
      ∀ a, (∀ k, k < 3 → portAddr a ≠ portAddr (s.dataAddr 0 + k)) → t.readByte a = s.readByte a) ∧
    (∃ t, exec (.stRegs x) s = .next t ∧ AgreeOutside [.mem] s t ∧
      ∀ a, (∀ k, k < 16 → portAddr a ≠ portAddr (s.dataAddr 0 + k)) → t.readByte a = s.readByte a)

/-- `Fx65` writes registers only; `Cxkk` writes `V[x]` and the random source; `Fx0A` writes `V[x]` or `PC`; `Dxyn` writes the framebuffer
and VF. No memory is stored to. -/
def Obligations.FrameLoadRandomKeyDraw : Prop :=
  ∀ (x y : RegIdx) (kk : Byte) (n : Nibble),
    WritesOnly (.ldRegs x) [.v] ∧ WritesOnlyRegs (.rnd x kk) [x] [.rng] ∧ WritesOnlyRegs (.ldVxK x) [x] [.pc] ∧
    WritesOnlyRegs (.drw x y n) [15] [.fb]

/-! ### Reset and boot -/

/-- R35: after reset, whatever the font table and the random seed, every byte of memory is zero except the font, whose glyph `k` has its
row `r` at 0x050 + 5 * `k` + `r`; `V[0]` to `V[15]` are 0, `PC` is 0x0200, `SP` is 0, every key is up and `CEF` is none. -/
def Obligations.ResetValuesOfTheSource : Prop :=
  ∀ (font : FontTable) (seed : Nat) (s : State), s = State.resetWith font seed →
    (∀ (k : Fin 16) (r : Fin 5), s.readByte (0x050 + 5 * k.val + r.val) = font[k][r]) ∧
    (∀ a, a < 4096 → (a < 0x050 ∨ 0x09F < a) → s.readByte a = 0) ∧
    (∀ r, s.readV r = 0) ∧ s.pc = 0x0200 ∧ s.sp = 0 ∧ (∀ k : KeyIdx, s.keys[k] = false) ∧ s.cef = .noFault

/-- The reset values that are the spec's own choice (R36, decision D11, log 11): `I`, the timers, the framebuffer and the stack slots are
zero. -/
def Obligations.ResetValuesDecided : Prop :=
  ∀ (font : FontTable) (seed : Nat) (s : State), s = State.resetWith font seed →
    s.i = 0 ∧ s.dt = 0 ∧ s.st = 0 ∧ (∀ cx cy, s.fb.cell cx cy = false) ∧ (∀ k : Fin 16, s.stack[k] = 0)

/-- The machine's fixed reset state is reset with the default font (R37, decision D14, log 14) and the random sequence 0 (the model's
choice, log 17), and reset with any other font or sequence differs from it in memory and in the random source only. -/
def Obligations.ResetTakesParameters : Prop :=
  State.reset = State.resetWith defaultFont 0 ∧
  ∀ font seed, AgreeOutside [.mem, .rng] State.reset (State.resetWith font seed)

/-- The ROM load (R232, R233): an image of 0 bytes or of more than 3584 is refused by name; any other is copied verbatim from 0x200 up,
every other byte of memory keeps, and nothing but memory changes. The premise is the invariant. -/
def Obligations.RomLoadCopiesTheImage : Prop :=
  ∀ (s : State) (image : List Byte), s.Inv →
    (image.length = 0 → romLoad image s = .error .emptyImage) ∧
    (3584 < image.length → romLoad image s = .error .oversizedImage) ∧
    (0 < image.length → image.length ≤ 3584 → ∃ t, romLoad image s = .ok t ∧ AgreeOutside [.mem] s t ∧
      (∀ j (h : j < image.length), t.readByte (0x200 + j) = image[j]) ∧
      ∀ a, a < 4096 → (a < 0x200 ∨ 0x200 + image.length ≤ a) → t.readByte a = s.readByte a)

/-- The first cycle after boot fetches the first two bytes of the image (R231): there is no reset vector and no boot code. Behind an
image of one byte stands the reset content of memory, 0 (R35). -/
def Obligations.BootFetchesTheImage : Prop :=
  ∀ (font : FontTable) (seed : Nat) (image : List Byte) (s t : State), boot font seed image = .ok s → step s = .next t →
    s.pc = 0x0200 ∧ t.ir = wordOfBytes (image.getD 0 0) (image.getD 1 0)
end

