-- ==== Sys2Proof/Laws/Decode.lean ====
section
/-! SUPPORT. The bits and fields of an encoded word (30_encoding.md R71, R72): one lemma per format and field. -/

namespace Sys2Proof

/-! ### Bits of the formats -/

theorem getLsbD_wordNNN (op : Nibble) (nnn : BitVec 12) (k : Nat) :
    (wordNNN op nnn).getLsbD k = if k < 12 then nnn.getLsbD k else op.getLsbD (k - 12) := by
  unfold wordNNN
  rw [BitVec.getLsbD_cast, BitVec.getLsbD_append]

theorem getLsbD_wordXKK (op : Nibble) (x : RegIdx) (kk : Byte) (k : Nat) :
    (wordXKK op x kk).getLsbD k =
      if k < 12 then (if k < 8 then kk.getLsbD k else (regField x).getLsbD (k - 8)) else op.getLsbD (k - 12) := by
  unfold wordXKK
  rw [getLsbD_wordNNN, BitVec.getLsbD_cast, BitVec.getLsbD_append]

theorem getLsbD_wordXYN (op : Nibble) (x y : RegIdx) (n : Nibble) (k : Nat) :
    (wordXYN op x y n).getLsbD k =
      if k < 12 then
        (if k < 8 then (if k < 4 then n.getLsbD k else (regField y).getLsbD (k - 4)) else (regField x).getLsbD (k - 8))
      else op.getLsbD (k - 12) := by
  unfold wordXYN
  rw [getLsbD_wordXKK, BitVec.getLsbD_cast, BitVec.getLsbD_append]

theorem getLsbD_wordOfBytes (hi lo : Byte) (k : Nat) :
    (wordOfBytes hi lo).getLsbD k = if k < 8 then lo.getLsbD k else hi.getLsbD (k - 8) := by
  unfold wordOfBytes
  rw [BitVec.getLsbD_cast, BitVec.getLsbD_append]

/-! ### Fields of the formats -/

theorem opOf_wordNNN (op : Nibble) (nnn : BitVec 12) : opOf (wordNNN op nnn) = op := by
  refine BitVec.eq_of_getLsbD_eq fun k hk => ?_
  simp only [opOf, BitVec.getLsbD_extractLsb', getLsbD_wordNNN, hk, decide_true, Bool.true_and]
  rw [if_neg (by omega), show 12 + k - 12 = k by omega]

theorem nnnOf_wordNNN (op : Nibble) (nnn : BitVec 12) : nnnOf (wordNNN op nnn) = nnn := by
  refine BitVec.eq_of_getLsbD_eq fun k hk => ?_
  simp only [nnnOf, BitVec.getLsbD_extractLsb', getLsbD_wordNNN, hk, decide_true, Bool.true_and]
  rw [if_pos (by omega), show 0 + k = k by omega]

theorem kkOf_wordNNN (op : Nibble) (nnn : BitVec 12) : kkOf (wordNNN op nnn) = nnn.extractLsb' 0 8 := by
  refine BitVec.eq_of_getLsbD_eq fun k hk => ?_
  simp only [kkOf, BitVec.getLsbD_extractLsb', getLsbD_wordNNN, hk, decide_true, Bool.true_and]
  rw [if_pos (by omega)]

theorem opOf_wordXKK (op : Nibble) (x : RegIdx) (kk : Byte) : opOf (wordXKK op x kk) = op := opOf_wordNNN _ _

theorem xOf_wordXKK (op : Nibble) (x : RegIdx) (kk : Byte) : xOf (wordXKK op x kk) = x := by
  suffices h : (wordXKK op x kk).extractLsb' 8 4 = regField x by rw [xOf, h]; rfl
  refine BitVec.eq_of_getLsbD_eq fun k hk => ?_
  simp only [BitVec.getLsbD_extractLsb', getLsbD_wordXKK, hk, decide_true, Bool.true_and]
  rw [if_pos (by omega), if_neg (by omega), show 8 + k - 8 = k by omega]

theorem kkOf_wordXKK (op : Nibble) (x : RegIdx) (kk : Byte) : kkOf (wordXKK op x kk) = kk := by
  refine BitVec.eq_of_getLsbD_eq fun k hk => ?_
  simp only [kkOf, BitVec.getLsbD_extractLsb', getLsbD_wordXKK, hk, decide_true, Bool.true_and]
  rw [if_pos (by omega), if_pos (by omega), show 0 + k = k by omega]

theorem opOf_wordXYN (op : Nibble) (x y : RegIdx) (n : Nibble) : opOf (wordXYN op x y n) = op := opOf_wordNNN _ _

theorem xOf_wordXYN (op : Nibble) (x y : RegIdx) (n : Nibble) : xOf (wordXYN op x y n) = x := xOf_wordXKK _ _ _

theorem yOf_wordXYN (op : Nibble) (x y : RegIdx) (n : Nibble) : yOf (wordXYN op x y n) = y := by
  suffices h : (wordXYN op x y n).extractLsb' 4 4 = regField y by rw [yOf, h]; rfl
  refine BitVec.eq_of_getLsbD_eq fun k hk => ?_
  simp only [BitVec.getLsbD_extractLsb', getLsbD_wordXYN, hk, decide_true, Bool.true_and]
  rw [if_pos (by omega), if_pos (by omega), if_neg (by omega), show 4 + k - 4 = k by omega]

theorem nOf_wordXYN (op : Nibble) (x y : RegIdx) (n : Nibble) : nOf (wordXYN op x y n) = n := by
  refine BitVec.eq_of_getLsbD_eq fun k hk => ?_
  simp only [nOf, BitVec.getLsbD_extractLsb', getLsbD_wordXYN, hk, decide_true, Bool.true_and]
  rw [if_pos (by omega), if_pos (by omega), if_pos (by omega), show 0 + k = k by omega]

/-- A word is its two bytes, high byte first. -/
theorem wordOfBytes_bytes (w : Word) : wordOfBytes (hiByte w) (loByte w) = w := by
  refine BitVec.eq_of_getLsbD_eq fun k hk => ?_
  simp only [getLsbD_wordOfBytes, hiByte, loByte, BitVec.getLsbD_extractLsb']
  split
  · simp [*]
  · simp [show k - 8 < 8 by omega, show 8 + (k - 8) = k by omega]

/-- A field that a row's mask covers has, in every word that selects the row, the value it has in the match (R85). -/
theorem field_of_selected {w mask bits : Word} (h : w &&& mask = bits) (start len : Nat)
    (hm : mask.extractLsb' start len = BitVec.allOnes len) : w.extractLsb' start len = bits.extractLsb' start len := by
  subst h
  refine BitVec.eq_of_getLsbD_eq fun k hk => ?_
  have hk' := congrArg (fun v : BitVec len => v.getLsbD k) hm
  simp only [BitVec.getLsbD_extractLsb', BitVec.getLsbD_allOnes, hk, decide_true, Bool.true_and] at hk'
  simp [hk, hk']

/-! ### A word of a format, masked -/

/-- A mask that keeps the top nibble only. -/
theorem masked_wordNNN (op : Nibble) (nnn : BitVec 12) : wordNNN op nnn &&& 0xF000 = wordNNN op 0 := by
  refine BitVec.eq_of_getLsbD_eq fun k hk => ?_
  rw [BitVec.getLsbD_and, getLsbD_wordNNN, getLsbD_wordNNN]
  have hm : ∀ j : Fin 16, (0xF000#16).getLsbD j.val = decide (12 ≤ j.val) := by decide
  rw [show (0xF000 : Word).getLsbD k = _ from hm ⟨k, hk⟩]
  split
  · simp; omega
  · simp [show 12 ≤ k by omega]

/-- A mask that keeps the top nibble and the low byte. -/
theorem masked_wordXKK (op : Nibble) (x : RegIdx) (kk : Byte) : wordXKK op x kk &&& 0xF0FF = wordXKK op 0 kk := by
  refine BitVec.eq_of_getLsbD_eq fun k hk => ?_
  rw [BitVec.getLsbD_and, getLsbD_wordXKK, getLsbD_wordXKK]
  have hm : ∀ j : Fin 16, (0xF0FF#16).getLsbD j.val = (decide (j.val < 8) || decide (12 ≤ j.val)) := by decide
  rw [show (0xF0FF : Word).getLsbD k = _ from hm ⟨k, hk⟩]
  have h0 : ∀ j, (regField 0).getLsbD j = false := fun j => by simp [regField, BitVec.getLsbD]
  split
  · split
    · simp [*]
    · simp [h0]; omega
  · simp [show 12 ≤ k by omega]

/-- A mask that keeps the top nibble and the low nibble. -/
theorem masked_wordXYN (op : Nibble) (x y : RegIdx) (n : Nibble) : wordXYN op x y n &&& 0xF00F = wordXYN op 0 0 n := by
  refine BitVec.eq_of_getLsbD_eq fun k hk => ?_
  rw [BitVec.getLsbD_and, getLsbD_wordXYN, getLsbD_wordXYN]
  have hm : ∀ j : Fin 16, (0xF00F#16).getLsbD j.val = (decide (j.val < 4) || decide (12 ≤ j.val)) := by decide
  rw [show (0xF00F : Word).getLsbD k = _ from hm ⟨k, hk⟩]
  have h0 : ∀ j, (regField 0).getLsbD j = false := fun j => by simp [regField, BitVec.getLsbD]
  split
  · split
    · split
      · simp [*]
      · simp [h0]; omega
    · simp [h0]; omega
  · simp [show 12 ≤ k by omega]

end Sys2Proof
end

