-- ==== Sys2Proof/Laws/State.lean ====
section
/-! SUPPORT. One lemma per field per update of the state, true by rfl, so that no later proof unfolds a record update. -/

namespace Sys2Proof.Machine

/-! ### writeV -/

@[simp] theorem writeV_mem (s : State) (r : RegIdx) (b : Byte) : (s.writeV r b).mem = s.mem := rfl
@[simp] theorem writeV_v (s : State) (r : RegIdx) (b : Byte) : (s.writeV r b).v = s.v.set r.val b := rfl
@[simp] theorem writeV_i (s : State) (r : RegIdx) (b : Byte) : (s.writeV r b).i = s.i := rfl
@[simp] theorem writeV_pc (s : State) (r : RegIdx) (b : Byte) : (s.writeV r b).pc = s.pc := rfl
@[simp] theorem writeV_stack (s : State) (r : RegIdx) (b : Byte) : (s.writeV r b).stack = s.stack := rfl
@[simp] theorem writeV_sp (s : State) (r : RegIdx) (b : Byte) : (s.writeV r b).sp = s.sp := rfl
@[simp] theorem writeV_dt (s : State) (r : RegIdx) (b : Byte) : (s.writeV r b).dt = s.dt := rfl
@[simp] theorem writeV_st (s : State) (r : RegIdx) (b : Byte) : (s.writeV r b).st = s.st := rfl
@[simp] theorem writeV_keys (s : State) (r : RegIdx) (b : Byte) : (s.writeV r b).keys = s.keys := rfl
@[simp] theorem writeV_fb (s : State) (r : RegIdx) (b : Byte) : (s.writeV r b).fb = s.fb := rfl
@[simp] theorem writeV_ir (s : State) (r : RegIdx) (b : Byte) : (s.writeV r b).ir = s.ir := rfl
@[simp] theorem writeV_cef (s : State) (r : RegIdx) (b : Byte) : (s.writeV r b).cef = s.cef := rfl
@[simp] theorem writeV_rng (s : State) (r : RegIdx) (b : Byte) : (s.writeV r b).rng = s.rng := rfl
@[simp] theorem writeV_keyIn (s : State) (r : RegIdx) (b : Byte) : (s.writeV r b).keyIn = s.keyIn := rfl

/-! ### jumpTo -/

@[simp] theorem jumpTo_mem (s : State) (a : Word) : (s.jumpTo a).mem = s.mem := rfl
@[simp] theorem jumpTo_v (s : State) (a : Word) : (s.jumpTo a).v = s.v := rfl
@[simp] theorem jumpTo_i (s : State) (a : Word) : (s.jumpTo a).i = s.i := rfl
@[simp] theorem jumpTo_pc (s : State) (a : Word) : (s.jumpTo a).pc = a := rfl
@[simp] theorem jumpTo_stack (s : State) (a : Word) : (s.jumpTo a).stack = s.stack := rfl
@[simp] theorem jumpTo_sp (s : State) (a : Word) : (s.jumpTo a).sp = s.sp := rfl
@[simp] theorem jumpTo_dt (s : State) (a : Word) : (s.jumpTo a).dt = s.dt := rfl
@[simp] theorem jumpTo_st (s : State) (a : Word) : (s.jumpTo a).st = s.st := rfl
@[simp] theorem jumpTo_keys (s : State) (a : Word) : (s.jumpTo a).keys = s.keys := rfl
@[simp] theorem jumpTo_fb (s : State) (a : Word) : (s.jumpTo a).fb = s.fb := rfl
@[simp] theorem jumpTo_ir (s : State) (a : Word) : (s.jumpTo a).ir = s.ir := rfl
@[simp] theorem jumpTo_cef (s : State) (a : Word) : (s.jumpTo a).cef = s.cef := rfl
@[simp] theorem jumpTo_rng (s : State) (a : Word) : (s.jumpTo a).rng = s.rng := rfl
@[simp] theorem jumpTo_keyIn (s : State) (a : Word) : (s.jumpTo a).keyIn = s.keyIn := rfl

/-! ### skip -/

@[simp] theorem skip_mem (s : State) : (s.skip).mem = s.mem := rfl
@[simp] theorem skip_v (s : State) : (s.skip).v = s.v := rfl
@[simp] theorem skip_i (s : State) : (s.skip).i = s.i := rfl
@[simp] theorem skip_pc (s : State) : (s.skip).pc = s.pc + 2 := rfl
@[simp] theorem skip_stack (s : State) : (s.skip).stack = s.stack := rfl
@[simp] theorem skip_sp (s : State) : (s.skip).sp = s.sp := rfl
@[simp] theorem skip_dt (s : State) : (s.skip).dt = s.dt := rfl
@[simp] theorem skip_st (s : State) : (s.skip).st = s.st := rfl
@[simp] theorem skip_keys (s : State) : (s.skip).keys = s.keys := rfl
@[simp] theorem skip_fb (s : State) : (s.skip).fb = s.fb := rfl
@[simp] theorem skip_ir (s : State) : (s.skip).ir = s.ir := rfl
@[simp] theorem skip_cef (s : State) : (s.skip).cef = s.cef := rfl
@[simp] theorem skip_rng (s : State) : (s.skip).rng = s.rng := rfl
@[simp] theorem skip_keyIn (s : State) : (s.skip).keyIn = s.keyIn := rfl

/-! ### rewind -/

@[simp] theorem rewind_mem (s : State) : (s.rewind).mem = s.mem := rfl
@[simp] theorem rewind_v (s : State) : (s.rewind).v = s.v := rfl
@[simp] theorem rewind_i (s : State) : (s.rewind).i = s.i := rfl
@[simp] theorem rewind_pc (s : State) : (s.rewind).pc = s.pc - 2 := rfl
@[simp] theorem rewind_stack (s : State) : (s.rewind).stack = s.stack := rfl
@[simp] theorem rewind_sp (s : State) : (s.rewind).sp = s.sp := rfl
@[simp] theorem rewind_dt (s : State) : (s.rewind).dt = s.dt := rfl
@[simp] theorem rewind_st (s : State) : (s.rewind).st = s.st := rfl
@[simp] theorem rewind_keys (s : State) : (s.rewind).keys = s.keys := rfl
@[simp] theorem rewind_fb (s : State) : (s.rewind).fb = s.fb := rfl
@[simp] theorem rewind_ir (s : State) : (s.rewind).ir = s.ir := rfl
@[simp] theorem rewind_cef (s : State) : (s.rewind).cef = s.cef := rfl
@[simp] theorem rewind_rng (s : State) : (s.rewind).rng = s.rng := rfl
@[simp] theorem rewind_keyIn (s : State) : (s.rewind).keyIn = s.keyIn := rfl

/-! ### recordFault -/

@[simp] theorem recordFault_mem (s : State) (e : CriticalError) : (s.recordFault e).mem = s.mem := rfl
@[simp] theorem recordFault_v (s : State) (e : CriticalError) : (s.recordFault e).v = s.v := rfl
@[simp] theorem recordFault_i (s : State) (e : CriticalError) : (s.recordFault e).i = s.i := rfl
@[simp] theorem recordFault_pc (s : State) (e : CriticalError) : (s.recordFault e).pc = s.pc := rfl
@[simp] theorem recordFault_stack (s : State) (e : CriticalError) : (s.recordFault e).stack = s.stack := rfl
@[simp] theorem recordFault_sp (s : State) (e : CriticalError) : (s.recordFault e).sp = s.sp := rfl
@[simp] theorem recordFault_dt (s : State) (e : CriticalError) : (s.recordFault e).dt = s.dt := rfl
@[simp] theorem recordFault_st (s : State) (e : CriticalError) : (s.recordFault e).st = s.st := rfl
@[simp] theorem recordFault_keys (s : State) (e : CriticalError) : (s.recordFault e).keys = s.keys := rfl
@[simp] theorem recordFault_fb (s : State) (e : CriticalError) : (s.recordFault e).fb = s.fb := rfl
@[simp] theorem recordFault_ir (s : State) (e : CriticalError) : (s.recordFault e).ir = s.ir := rfl
@[simp] theorem recordFault_cef (s : State) (e : CriticalError) : (s.recordFault e).cef = e := rfl
@[simp] theorem recordFault_rng (s : State) (e : CriticalError) : (s.recordFault e).rng = s.rng := rfl
@[simp] theorem recordFault_keyIn (s : State) (e : CriticalError) : (s.recordFault e).keyIn = s.keyIn := rfl

/-! ### storeBytes -/

@[simp] theorem storeBytes_mem (s : State) (a : Nat) (bs : List Byte) : (s.storeBytes a bs).mem = s.mem.writeBytes a bs := rfl
@[simp] theorem storeBytes_v (s : State) (a : Nat) (bs : List Byte) : (s.storeBytes a bs).v = s.v := rfl
@[simp] theorem storeBytes_i (s : State) (a : Nat) (bs : List Byte) : (s.storeBytes a bs).i = s.i := rfl
@[simp] theorem storeBytes_pc (s : State) (a : Nat) (bs : List Byte) : (s.storeBytes a bs).pc = s.pc := rfl
@[simp] theorem storeBytes_stack (s : State) (a : Nat) (bs : List Byte) : (s.storeBytes a bs).stack = s.stack := rfl
@[simp] theorem storeBytes_sp (s : State) (a : Nat) (bs : List Byte) : (s.storeBytes a bs).sp = s.sp := rfl
@[simp] theorem storeBytes_dt (s : State) (a : Nat) (bs : List Byte) : (s.storeBytes a bs).dt = s.dt := rfl
@[simp] theorem storeBytes_st (s : State) (a : Nat) (bs : List Byte) : (s.storeBytes a bs).st = s.st := rfl
@[simp] theorem storeBytes_keys (s : State) (a : Nat) (bs : List Byte) : (s.storeBytes a bs).keys = s.keys := rfl
@[simp] theorem storeBytes_fb (s : State) (a : Nat) (bs : List Byte) : (s.storeBytes a bs).fb = s.fb := rfl
@[simp] theorem storeBytes_ir (s : State) (a : Nat) (bs : List Byte) : (s.storeBytes a bs).ir = s.ir := rfl
@[simp] theorem storeBytes_cef (s : State) (a : Nat) (bs : List Byte) : (s.storeBytes a bs).cef = s.cef := rfl
@[simp] theorem storeBytes_rng (s : State) (a : Nat) (bs : List Byte) : (s.storeBytes a bs).rng = s.rng := rfl
@[simp] theorem storeBytes_keyIn (s : State) (a : Nat) (bs : List Byte) : (s.storeBytes a bs).keyIn = s.keyIn := rfl

/-! ### fetchAdvance -/

@[simp] theorem fetchAdvance_mem (s : State) : (s.fetchAdvance).mem = s.mem := rfl
@[simp] theorem fetchAdvance_v (s : State) : (s.fetchAdvance).v = s.v := rfl
@[simp] theorem fetchAdvance_i (s : State) : (s.fetchAdvance).i = s.i := rfl
@[simp] theorem fetchAdvance_pc (s : State) : (s.fetchAdvance).pc = s.pc + 2 := rfl
@[simp] theorem fetchAdvance_stack (s : State) : (s.fetchAdvance).stack = s.stack := rfl
@[simp] theorem fetchAdvance_sp (s : State) : (s.fetchAdvance).sp = s.sp := rfl
@[simp] theorem fetchAdvance_dt (s : State) : (s.fetchAdvance).dt = s.dt := rfl
@[simp] theorem fetchAdvance_st (s : State) : (s.fetchAdvance).st = s.st := rfl
@[simp] theorem fetchAdvance_keys (s : State) : (s.fetchAdvance).keys = s.keys := rfl
@[simp] theorem fetchAdvance_fb (s : State) : (s.fetchAdvance).fb = s.fb := rfl
@[simp] theorem fetchAdvance_ir (s : State) : (s.fetchAdvance).ir = s.fetchWord := rfl
@[simp] theorem fetchAdvance_cef (s : State) : (s.fetchAdvance).cef = s.cef := rfl
@[simp] theorem fetchAdvance_rng (s : State) : (s.fetchAdvance).rng = s.rng := rfl
@[simp] theorem fetchAdvance_keyIn (s : State) : (s.fetchAdvance).keyIn = s.keyIn := rfl

/-! ### tick -/

@[simp] theorem tick_mem (s : State) : (s.tick).mem = s.mem := rfl
@[simp] theorem tick_v (s : State) : (s.tick).v = s.v := rfl
@[simp] theorem tick_i (s : State) : (s.tick).i = s.i := rfl
@[simp] theorem tick_pc (s : State) : (s.tick).pc = s.pc := rfl
@[simp] theorem tick_stack (s : State) : (s.tick).stack = s.stack := rfl
@[simp] theorem tick_sp (s : State) : (s.tick).sp = s.sp := rfl
@[simp] theorem tick_dt (s : State) : (s.tick).dt = tickTimer s.dt := rfl
@[simp] theorem tick_st (s : State) : (s.tick).st = tickTimer s.st := rfl
@[simp] theorem tick_keys (s : State) : (s.tick).keys = s.keys := rfl
@[simp] theorem tick_fb (s : State) : (s.tick).fb = s.fb := rfl
@[simp] theorem tick_ir (s : State) : (s.tick).ir = s.ir := rfl
@[simp] theorem tick_cef (s : State) : (s.tick).cef = s.cef := rfl
@[simp] theorem tick_rng (s : State) : (s.tick).rng = s.rng := rfl
@[simp] theorem tick_keyIn (s : State) : (s.tick).keyIn = s.keyIn := rfl

/-! ### presentKeys -/

@[simp] theorem presentKeys_mem (s : State) (k : Keys) : (presentKeys k s).mem = s.mem := rfl
@[simp] theorem presentKeys_v (s : State) (k : Keys) : (presentKeys k s).v = s.v := rfl
@[simp] theorem presentKeys_i (s : State) (k : Keys) : (presentKeys k s).i = s.i := rfl
@[simp] theorem presentKeys_pc (s : State) (k : Keys) : (presentKeys k s).pc = s.pc := rfl
@[simp] theorem presentKeys_stack (s : State) (k : Keys) : (presentKeys k s).stack = s.stack := rfl
@[simp] theorem presentKeys_sp (s : State) (k : Keys) : (presentKeys k s).sp = s.sp := rfl
@[simp] theorem presentKeys_dt (s : State) (k : Keys) : (presentKeys k s).dt = s.dt := rfl
@[simp] theorem presentKeys_st (s : State) (k : Keys) : (presentKeys k s).st = s.st := rfl
@[simp] theorem presentKeys_keys (s : State) (k : Keys) : (presentKeys k s).keys = s.keys := rfl
@[simp] theorem presentKeys_fb (s : State) (k : Keys) : (presentKeys k s).fb = s.fb := rfl
@[simp] theorem presentKeys_ir (s : State) (k : Keys) : (presentKeys k s).ir = s.ir := rfl
@[simp] theorem presentKeys_cef (s : State) (k : Keys) : (presentKeys k s).cef = s.cef := rfl
@[simp] theorem presentKeys_rng (s : State) (k : Keys) : (presentKeys k s).rng = s.rng := rfl
@[simp] theorem presentKeys_keyIn (s : State) (k : Keys) : (presentKeys k s).keyIn = s.keyIn ++ [k] := rfl

/-! ### resetWith -/

@[simp] theorem resetWith_mem (font : FontTable) (seed : Nat) : (State.resetWith font seed).mem = Memory.loadFont [] font := rfl
@[simp] theorem resetWith_v (font : FontTable) (seed : Nat) : (State.resetWith font seed).v = Vector.replicate 16 0 := rfl
@[simp] theorem resetWith_i (font : FontTable) (seed : Nat) : (State.resetWith font seed).i = 0 := rfl
@[simp] theorem resetWith_pc (font : FontTable) (seed : Nat) : (State.resetWith font seed).pc = 0x0200 := rfl
@[simp] theorem resetWith_stack (font : FontTable) (seed : Nat) : (State.resetWith font seed).stack = Vector.replicate 16 0 := rfl
@[simp] theorem resetWith_sp (font : FontTable) (seed : Nat) : (State.resetWith font seed).sp = 0 := rfl
@[simp] theorem resetWith_dt (font : FontTable) (seed : Nat) : (State.resetWith font seed).dt = 0 := rfl
@[simp] theorem resetWith_st (font : FontTable) (seed : Nat) : (State.resetWith font seed).st = 0 := rfl
@[simp] theorem resetWith_keys (font : FontTable) (seed : Nat) : (State.resetWith font seed).keys = Vector.replicate 16 false := rfl
@[simp] theorem resetWith_fb (font : FontTable) (seed : Nat) : (State.resetWith font seed).fb = .dark := rfl
@[simp] theorem resetWith_ir (font : FontTable) (seed : Nat) : (State.resetWith font seed).ir = 0 := rfl
@[simp] theorem resetWith_cef (font : FontTable) (seed : Nat) : (State.resetWith font seed).cef = .noFault := rfl
@[simp] theorem resetWith_rng (font : FontTable) (seed : Nat) :
    (State.resetWith font seed).rng = { seed := seed, draws := 0, injected := [] } := rfl
@[simp] theorem resetWith_keyIn (font : FontTable) (seed : Nat) : (State.resetWith font seed).keyIn = [] := rfl

/-! ### injectRandom -/

@[simp] theorem injectRandom_mem (bs : List Byte) (s : State) : (injectRandom bs s).mem = s.mem := rfl
@[simp] theorem injectRandom_v (bs : List Byte) (s : State) : (injectRandom bs s).v = s.v := rfl
@[simp] theorem injectRandom_i (bs : List Byte) (s : State) : (injectRandom bs s).i = s.i := rfl
@[simp] theorem injectRandom_pc (bs : List Byte) (s : State) : (injectRandom bs s).pc = s.pc := rfl
@[simp] theorem injectRandom_stack (bs : List Byte) (s : State) : (injectRandom bs s).stack = s.stack := rfl
@[simp] theorem injectRandom_sp (bs : List Byte) (s : State) : (injectRandom bs s).sp = s.sp := rfl
@[simp] theorem injectRandom_dt (bs : List Byte) (s : State) : (injectRandom bs s).dt = s.dt := rfl
@[simp] theorem injectRandom_st (bs : List Byte) (s : State) : (injectRandom bs s).st = s.st := rfl
@[simp] theorem injectRandom_keys (bs : List Byte) (s : State) : (injectRandom bs s).keys = s.keys := rfl
@[simp] theorem injectRandom_fb (bs : List Byte) (s : State) : (injectRandom bs s).fb = s.fb := rfl
@[simp] theorem injectRandom_ir (bs : List Byte) (s : State) : (injectRandom bs s).ir = s.ir := rfl
@[simp] theorem injectRandom_cef (bs : List Byte) (s : State) : (injectRandom bs s).cef = s.cef := rfl
@[simp] theorem injectRandom_rng (bs : List Byte) (s : State) : (injectRandom bs s).rng = { s.rng with injected := s.rng.injected ++ bs } := rfl
@[simp] theorem injectRandom_keyIn (bs : List Byte) (s : State) : (injectRandom bs s).keyIn = s.keyIn := rfl

/-! ### Reading through updates that leave the read part alone -/

@[simp] theorem readByte_writeV (s : State) (r : RegIdx) (b : Byte) (a : Nat) : (s.writeV r b).readByte a = s.readByte a := rfl
@[simp] theorem readByte_jumpTo (s : State) (w : Word) (a : Nat) : (s.jumpTo w).readByte a = s.readByte a := rfl
@[simp] theorem readByte_skip (s : State) (a : Nat) : s.skip.readByte a = s.readByte a := rfl
@[simp] theorem readByte_rewind (s : State) (a : Nat) : s.rewind.readByte a = s.readByte a := rfl
@[simp] theorem readByte_recordFault (s : State) (e : CriticalError) (a : Nat) : (s.recordFault e).readByte a = s.readByte a := rfl
@[simp] theorem readByte_fetchAdvance (s : State) (a : Nat) : s.fetchAdvance.readByte a = s.readByte a := rfl
@[simp] theorem readByte_tick (s : State) (a : Nat) : s.tick.readByte a = s.readByte a := rfl
@[simp] theorem readV_jumpTo (s : State) (w : Word) (r : RegIdx) : (s.jumpTo w).readV r = s.readV r := rfl
@[simp] theorem readV_skip (s : State) (r : RegIdx) : s.skip.readV r = s.readV r := rfl
@[simp] theorem readV_rewind (s : State) (r : RegIdx) : s.rewind.readV r = s.readV r := rfl
@[simp] theorem readV_recordFault (s : State) (e : CriticalError) (r : RegIdx) : (s.recordFault e).readV r = s.readV r := rfl
@[simp] theorem readV_storeBytes (s : State) (a : Nat) (bs : List Byte) (r : RegIdx) : (s.storeBytes a bs).readV r = s.readV r := rfl
@[simp] theorem readV_fetchAdvance (s : State) (r : RegIdx) : s.fetchAdvance.readV r = s.readV r := rfl
@[simp] theorem readV_tick (s : State) (r : RegIdx) : s.tick.readV r = s.readV r := rfl

end Sys2Proof.Machine
end

