-- ==== Sys2Proof/Laws/Memory.lean ====
section
/-! SUPPORT. The laws of the memory: a read after a write, and the canonical form kept by every memory operation. -/

namespace Sys2Proof.Machine

theorem portAddr_lt (a : Nat) : portAddr a < Config.memSize := Nat.mod_lt _ (by decide)

/-- An address below every listed one reads as the background. -/
theorem get_of_lt_all {m : Memory} {k : Nat} (h : ∀ c ∈ m, k < c.1) : m.get k = background k := by
  induction m with
  | nil => rfl
  | cons c rest ih =>
    have hc : k ≠ c.1 := Nat.ne_of_lt (h c (by simp))
    simp only [Memory.get, if_neg hc]
    exact ih fun d hd => h d (by simp [hd])

/-- A read of one cell after a write of one cell. -/
theorem get_put {m : Memory} (h : m.Pairwise fun c d => c.1 < d.1) (k j : Nat) (b : Byte) :
    (m.put k b).get j = if j = k then b else m.get j := by
  induction m with
  | nil => by_cases hb : b = background k <;> by_cases hj : j = k <;> simp_all [Memory.put, Memory.get]
  | cons c rest ih =>
    obtain ⟨hc, hrest⟩ := List.pairwise_cons.mp h
    have hbg : ∀ i, i ≤ c.1 → Memory.get i rest = background i := fun i hi =>
      get_of_lt_all fun d hd => Nat.lt_of_le_of_lt hi (hc d hd)
    unfold Memory.put
    split
    · rename_i hlt
      split
      · by_cases hj : j = k
        · subst hj
          simp [Memory.get, Nat.ne_of_lt hlt, hbg j (Nat.le_of_lt hlt), *]
        · simp [hj]
      · by_cases hj : j = k <;> simp [Memory.get, hj]
    · split
      · rename_i hk
        subst hk
        split
        · by_cases hj : j = c.1
          · subst hj; simp [*]
          · simp [Memory.get, hj]
        · by_cases hj : j = c.1 <;> simp [Memory.get, hj]
      · by_cases hj : j = c.1
        · have : ¬ c.1 = k := fun e => by omega
          simp [Memory.get, hj, this]
        · simp only [Memory.get, if_neg hj, ih hrest]

/-- Where the entries of a written memory come from. -/
theorem mem_put {m : Memory} {k : Nat} {b : Byte} {c : Host.Cell} (h : c ∈ m.put k b) :
    c ∈ m ∨ (c = (k, b) ∧ b ≠ background k) := by
  induction m with
  | nil => by_cases hb : b = background k <;> simp_all [Memory.put]
  | cons d rest ih =>
    have hcons : ∀ {l : Memory}, c ∈ (k, b) :: l → b ≠ background k → (∀ e ∈ l, e ∈ d :: rest) →
        c ∈ d :: rest ∨ (c = (k, b) ∧ b ≠ background k) := fun hc hb hl => by
      rcases List.mem_cons.mp hc with rfl | hc
      · exact .inr ⟨rfl, hb⟩
      · exact .inl (hl c hc)
    by_cases hlt : k < d.1
    · by_cases hb : b = background k
      · exact .inl (by simpa [Memory.put, hlt, hb] using h)
      · exact hcons (l := d :: rest) (by simpa [Memory.put, hlt, hb] using h) hb fun e he => he
    · by_cases hk : k = d.1
      · by_cases hb : b = background k
        · have h' : c ∈ rest := by simpa only [Memory.put, if_neg hlt, if_pos hk, if_pos hb] using h
          exact .inl (List.mem_cons_of_mem _ h')
        · have h' : c ∈ (k, b) :: rest := by simpa only [Memory.put, if_neg hlt, if_pos hk, if_neg hb] using h
          exact hcons h' hb fun e he => List.mem_cons_of_mem _ he
      · have h' : c ∈ d :: Memory.put k b rest := by simpa only [Memory.put, if_neg hlt, if_neg hk] using h
        rcases List.mem_cons.mp h' with rfl | h'
        · exact .inl (by simp)
        · exact (ih h').imp (List.mem_cons_of_mem _) id

theorem put_wf {m : Memory} {k : Nat} (b : Byte) (hk : k < Config.memSize) (h : m.wf) : (m.put k b).wf := by
  refine ⟨?_, fun c hc => ?_⟩
  · have hs := h.1
    clear h
    induction m with
    | nil => unfold Memory.put; split <;> simp
    | cons d rest ih =>
      obtain ⟨hd, hrest⟩ := List.pairwise_cons.mp hs
      unfold Memory.put
      split
      · rename_i hlt
        split
        · exact hs
        · refine List.pairwise_cons.mpr ⟨fun c hc => ?_, hs⟩
          rcases List.mem_cons.mp hc with rfl | hc
          · exact hlt
          · exact Nat.lt_trans hlt (hd c hc)
      · split
        · rename_i hk
          split
          · exact hrest
          · exact List.pairwise_cons.mpr ⟨fun c hc => hk ▸ hd c hc, hrest⟩
        · refine List.pairwise_cons.mpr ⟨fun c hc => ?_, ih hrest⟩
          rcases mem_put hc with hc | ⟨rfl, -⟩
          · exact hd c hc
          · change d.1 < k; omega
  · rcases mem_put hc with hc | ⟨rfl, hb⟩
    · exact h.2 c hc
    · exact ⟨hk, hb⟩

/-- Every write keeps the canonical form. -/
theorem write_wf {m : Memory} (a : Nat) (b : Byte) (h : m.wf) : (m.write a b).wf :=
  put_wf b (portAddr_lt a) h

theorem writeBytes_wf {m : Memory} (a : Nat) (bs : List Byte) (h : m.wf) : (m.writeBytes a bs).wf := by
  induction bs generalizing m a with
  | nil => exact h
  | cons b rest ih => exact ih _ (write_wf a b h)

/-- A read after a write of one byte (R51, R56). -/
theorem read_write {m : Memory} (h : m.wf) (a j : Nat) (b : Byte) :
    (m.write a b).read j = if portAddr j = portAddr a then b else m.read j :=
  get_put h.1 _ _ _

/-- A byte that none of the stored addresses names reads as before. -/
theorem read_writeBytes_outside {m : Memory} (h : m.wf) (a j : Nat) (bs : List Byte)
    (hj : ∀ k, k < bs.length → portAddr j ≠ portAddr (a + k)) : (m.writeBytes a bs).read j = m.read j := by
  induction bs generalizing m a with
  | nil => rfl
  | cons b rest ih =>
    have h0 : portAddr j ≠ portAddr a := hj 0 (by simp)
    have hrest : ∀ k, k < rest.length → portAddr j ≠ portAddr (a + 1 + k) := fun k hk => by
      have := hj (k + 1) (by simp; omega)
      rwa [show a + (k + 1) = a + 1 + k by omega] at this
    show ((m.write a b).writeBytes (a + 1) rest).read j = m.read j
    rw [ih (write_wf a b h) _ hrest, read_write h, if_neg h0]

/-- The bytes of a store of at most 4096 bytes read back in order. -/
theorem read_writeBytes_inside {m : Memory} (h : m.wf) (a : Nat) (bs : List Byte) (hlen : bs.length ≤ Config.memSize)
    (k : Nat) (hk : k < bs.length) : (m.writeBytes a bs).read (a + k) = bs[k] := by
  induction bs generalizing m a k with
  | nil => simp at hk
  | cons b rest ih =>
    simp only [List.length_cons] at hlen hk
    show ((m.write a b).writeBytes (a + 1) rest).read (a + k) = (b :: rest)[k]
    cases k with
    | zero =>
      rw [read_writeBytes_outside (write_wf a b h), read_write h]
      · simp
      · intro k' hk'
        simp only [portAddr, Config.memSize] at *
        omega
    | succ k =>
      rw [show a + (k + 1) = a + 1 + k by omega, ih (write_wf a b h) _ (by omega) k (by omega)]
      simp

/-- The reset memory is in canonical form. -/
theorem nil_wf : Memory.wf [] := by simp [Memory.wf]

theorem storeBytes_wf {s : State} (a : Nat) (bs : List Byte) (h : s.mem.wf) : (s.storeBytes a bs).mem.wf :=
  writeBytes_wf a bs h

/-! ### The font (R37) -/

theorem fontBytes_length (font : FontTable) : (fontBytes font).length = 80 := List.length_ofFn

/-- Row `r` of glyph `k` is byte 5 * `k` + `r` of the laid-out table. -/
theorem fontBytes_getElem (font : FontTable) (k : Fin 16) (r : Fin 5) (h : 5 * k.val + r.val < (fontBytes font).length) :
    (fontBytes font)[5 * k.val + r.val] = font[k][r] := by
  have hk : (5 * k.val + r.val) / 5 = k.val := by omega
  have hr : (5 * k.val + r.val) % 5 = r.val := by omega
  simp only [fontBytes, List.getElem_ofFn, hk, hr]
  rfl

theorem loadFont_eq (m : Memory) (font : FontTable) : m.loadFont font = m.writeBytes fontBase (fontBytes font) := by
  unfold Memory.loadFont; rfl

theorem loadFont_wf {m : Memory} (font : FontTable) (h : m.wf) : (m.loadFont font).wf := by
  rw [loadFont_eq]
  exact writeBytes_wf _ _ h

/-- After the Font Loader, row `r` of glyph `k` is at its place. -/
theorem read_loadFont_inside {m : Memory} (h : m.wf) (font : FontTable) (k : Fin 16) (r : Fin 5) :
    (m.loadFont font).read (fontBase + (5 * k.val + r.val)) = font[k][r] := by
  have hlt : 5 * k.val + r.val < (fontBytes font).length := by rw [fontBytes_length]; omega
  rw [← fontBytes_getElem font k r hlt, loadFont_eq]
  exact read_writeBytes_inside h _ _ (by rw [fontBytes_length]; decide) _ hlt

/-- The Font Loader leaves every other byte alone. -/
theorem read_loadFont_outside {m : Memory} (h : m.wf) (font : FontTable) {a : Nat}
    (ha : portAddr a < fontBase ∨ fontBase + 80 ≤ portAddr a) : (m.loadFont font).read a = m.read a := by
  rw [loadFont_eq]
  refine read_writeBytes_outside h _ _ _ fun k hk => ?_
  rw [fontBytes_length] at hk
  have : portAddr (fontBase + k) = fontBase + k := Nat.mod_eq_of_lt (by unfold fontBase Config.memSize; omega)
  omega

/-- The memory of every reset state is in canonical form. -/
theorem resetWith_wf (font : FontTable) (seed : Nat) : (State.resetWith font seed).mem.wf := by
  rw [resetWith_mem]
  exact loadFont_wf font nil_wf

/-- The default font is the background, so loading it lists nothing. -/
theorem loadFont_default : Memory.loadFont [] defaultFont = [] := by
  rw [loadFont_eq]
  decide

/-- A read looks at the low twelve bits of its address only (R51). -/
theorem readByte_congr (s : State) {a b : Nat} (h : portAddr a = portAddr b) : s.readByte a = s.readByte b := by
  simp only [State.readByte, Memory.read, h]

end Sys2Proof.Machine
end

