-- ==== Sys2Proof/Laws/Ops.lean ====
section
/-! SUPPORT. What each shared operation can do, said once; later proofs cite these and do not unfold the operations. -/

namespace Sys2Proof.Machine

/-! ### Registers (R21) -/

theorem readV_writeV (s : State) (r q : RegIdx) (b : Byte) :
    (s.writeV r b).readV q = if q = r then b else s.readV q := by
  simp only [State.readV, State.writeV, Vector.getElem_set, Fin.ext_iff, eq_comm]

@[simp] theorem readV_writeV_self (s : State) (r : RegIdx) (b : Byte) : (s.writeV r b).readV r = b := by
  rw [readV_writeV, if_pos rfl]

theorem readV_writeV_of_ne (s : State) {r q : RegIdx} (b : Byte) (h : q ≠ r) : (s.writeV r b).readV q = s.readV q := by
  rw [readV_writeV, if_neg h]

/-! ### The skip (R97) -/

theorem skipIf_eq (s : State) (c : Bool) : s.skipIf c = { s with pc := if c then s.pc + 2 else s.pc } := by
  cases c <;> rfl

@[simp] theorem skipIf_pc (s : State) (c : Bool) : (s.skipIf c).pc = if c then s.pc + 2 else s.pc := by
  rw [skipIf_eq]

/-! ### The stack manager (R98, R99) -/

theorem push_of_room {s : State} (a : Word) (h : s.sp.val < 16) :
    s.push a = { s with stack := s.stack.set s.sp.val a h, sp := ⟨s.sp.val + 1, by omega⟩ } := dif_pos h

theorem push_of_full {s : State} (a : Word) (h : s.sp.val = 16) : s.push a = s.recordFault .stackOverflow :=
  dif_neg (by omega)

theorem pop_of_empty {s : State} (h : s.sp.val = 0) : s.pop = (none, s.recordFault .stackUnderflow) := dif_pos h

theorem pop_of_nonempty {s : State} (h : s.sp.val ≠ 0) :
    s.pop = (some (s.stack[s.sp.val - 1]'(by omega)), { s with sp := ⟨s.sp.val - 1, by omega⟩ }) := dif_neg h

/-- `Push` writes the stack, its pointer and the error flag only. -/
theorem push_cases (s : State) (a : Word) :
    (∃ h : s.sp.val < 16, s.push a = { s with stack := s.stack.set s.sp.val a h, sp := ⟨s.sp.val + 1, by omega⟩ }) ∨
    (s.sp.val = 16 ∧ s.push a = s.recordFault .stackOverflow) := by
  by_cases h : s.sp.val < 16
  · exact .inl ⟨h, push_of_room a h⟩
  · exact .inr ⟨by omega, push_of_full a (by omega)⟩

/-- `Pop` writes the stack pointer or the error flag only. -/
theorem pop_cases (s : State) :
    (s.sp.val = 0 ∧ s.pop = (none, s.recordFault .stackUnderflow)) ∨
    (∃ _h : s.sp.val ≠ 0, s.pop = (some (s.stack[s.sp.val - 1]'(by omega)), { s with sp := ⟨s.sp.val - 1, by omega⟩ })) := by
  by_cases h : s.sp.val = 0
  · exact .inl ⟨h, pop_of_empty h⟩
  · exact .inr ⟨h, pop_of_nonempty h⟩

/-! ### The random byte source (R165) -/

theorem peek_injected {g : Rng} {b : Byte} {rest : List Byte} (h : g.injected = b :: rest) :
    g.peek = b ∧ g.advance = { g with injected := rest } := by
  simp [Rng.peek, Rng.advance, h]

theorem peek_drawn {g : Rng} (h : g.injected = []) :
    g.peek = Config.randomByte g.seed g.draws ∧ g.advance = { g with draws := g.draws + 1 } := by
  simp [Rng.peek, Rng.advance, h]

/-! ### The keypad (R187) -/

theorem find?_finRange_some {n : Nat} {p : Fin n → Bool} {k : Fin n} :
    (List.finRange n).find? p = some k ↔ p k = true ∧ ∀ j : Fin n, j < k → p j = false := by
  rw [List.find?_eq_some_iff_getElem]
  constructor
  · rintro ⟨hk, i, hi, heq, hbefore⟩
    refine ⟨hk, fun j hj => ?_⟩
    have hik : i = k.val := by have := congrArg Fin.val heq; simpa using this
    have := hbefore j.val (by rw [hik]; exact hj)
    simpa using this
  · rintro ⟨hk, hbefore⟩
    refine ⟨hk, k.val, by simp, by simp, fun j hj => ?_⟩
    simpa using hbefore ⟨j, Nat.lt_trans hj k.isLt⟩ hj

/-- The key that `Fx0A` stores is down, and no lower key is. -/
theorem firstKeyDown_eq_some {s : State} {k : KeyIdx} :
    s.firstKeyDown = some k ↔ s.keys[k.val] = true ∧ ∀ j : KeyIdx, j < k → s.keys[j.val] = false :=
  find?_finRange_some

theorem firstKeyDown_eq_none {s : State} : s.firstKeyDown = none ↔ ∀ k : KeyIdx, s.keys[k.val] = false := by
  simp [State.firstKeyDown, List.find?_eq_none]

/-! ### Decimal digits (R153) -/

theorem bcdDigits_length (b : Byte) : (bcdDigits b).length = 3 := rfl

/-- The three digits, as numbers. -/
theorem bcdDigits_toNat (b : Byte) :
    (bcdDigits b).map BitVec.toNat = [b.toNat / 100, b.toNat / 10 % 10, b.toNat % 10] := by
  have := b.isLt
  simp only [bcdDigits, List.map_cons, List.map_nil, BitVec.toNat_ofNat, List.cons.injEq, and_true]
  exact ⟨Nat.mod_eq_of_lt (by omega), Nat.mod_eq_of_lt (by omega), Nat.mod_eq_of_lt (by omega)⟩

/-! ### Drawing (R176) -/

@[simp] theorem dark_cell (cx cy : Nat) : Framebuffer.dark.cell cx cy = false := by
  simp [Framebuffer.cell, Framebuffer.row, Framebuffer.dark]

/-- Coordinates that agree modulo the screen's size name the same cell. -/
theorem cell_congr (fb : Framebuffer) {x y cx cy : Nat} (hx : x % 64 = cx % 64) (hy : y % 32 = cy % 32) :
    fb.cell x y = fb.cell cx cy := by
  simp only [Framebuffer.cell, Framebuffer.row, Config.fbWidth, Config.fbHeight, hx, hy]

/-- A toggle flips the named cell and leaves every other cell alone. -/
theorem cell_toggle (fb : Framebuffer) (x y cx cy : Nat) :
    (fb.toggle cx cy).cell x y = (fb.cell x y ^^ decide (x % 64 = cx % 64 ∧ y % 32 = cy % 32)) := by
  have hx : cx % 64 < 64 := Nat.mod_lt _ (by decide)
  simp only [Framebuffer.toggle, Framebuffer.cell, Framebuffer.row, Config.fbWidth, Config.fbHeight, Vector.getElem_set]
  by_cases hy : y % 32 = cy % 32
  · simp only [hy, if_true, BitVec.getLsbD_xor, BitVec.getLsbD_twoPow, hx, decide_true, Bool.true_and, and_true]
    congr 1
    exact decide_eq_decide.mpr eq_comm
  · simp [hy, Ne.symm hy]

/-- Two framebuffers with the same cells are equal. -/
theorem framebuffer_ext {f g : Framebuffer} (h : ∀ x y, x < 64 → y < 32 → f.cell x y = g.cell x y) : f = g := by
  refine Vector.ext fun y hy => BitVec.eq_of_getLsbD_eq fun x hx => ?_
  have := h x y hx hy
  simpa only [Framebuffer.cell, Framebuffer.row, Config.fbWidth, Config.fbHeight, Nat.mod_eq_of_lt hx, Nat.mod_eq_of_lt hy]
    using this

/-! ### The timers (R96) -/

theorem tickTimer_toNat (t : Byte) : (tickTimer t).toNat = t.toNat - 1 := by
  unfold tickTimer
  split
  · simp [*]
  · have h0 : t.toNat ≠ 0 := fun h => ‹¬t = 0› (BitVec.eq_of_toNat_eq h)
    have := t.isLt
    rw [BitVec.toNat_sub, show (1 : Byte).toNat = 1 from rfl]
    omega

end Sys2Proof.Machine
end

