-- ==== Sys2Proof/Laws/PerInstr.lean ====
section
/-! SUPPORT. The laws stated per instruction. -/

namespace Sys2Proof.Laws

/-! ### CanonicalRow: the canonical word of an instruction selects the row of the opcode map that bears its label (R79, R85) -/

/-- Some row of the opcode map has the instruction's label, and the instruction's word selects it. -/
def CanonicalRow.Statement (i : Instr) : Prop :=
  ∃ row ∈ opcodeMap, row.mnemonic = i.mnemonic ∧ encode i &&& row.mask = row.matchBits

theorem CanonicalRow.cls : CanonicalRow.Statement (.cls) :=
  ⟨⟨"CLS", 0xF0FF, 0x00E0⟩, by decide, rfl, by decide⟩

theorem CanonicalRow.ret : CanonicalRow.Statement (.ret) :=
  ⟨⟨"RET", 0xF0FF, 0x00EE⟩, by decide, rfl, by decide⟩

theorem CanonicalRow.jp (nnn : BitVec 12) : CanonicalRow.Statement (.jp nnn) :=
  ⟨⟨"JP", 0xF000, 0x1000⟩, by decide, rfl, masked_wordNNN _ _⟩

theorem CanonicalRow.call (nnn : BitVec 12) : CanonicalRow.Statement (.call nnn) :=
  ⟨⟨"CALL", 0xF000, 0x2000⟩, by decide, rfl, masked_wordNNN _ _⟩

theorem CanonicalRow.seImm (x : RegIdx) (kk : Byte) : CanonicalRow.Statement (.seImm x kk) :=
  ⟨⟨"SE_IMM", 0xF000, 0x3000⟩, by decide, rfl, masked_wordNNN _ _⟩

theorem CanonicalRow.sneImm (x : RegIdx) (kk : Byte) : CanonicalRow.Statement (.sneImm x kk) :=
  ⟨⟨"SNE_IMM", 0xF000, 0x4000⟩, by decide, rfl, masked_wordNNN _ _⟩

theorem CanonicalRow.seReg (x y : RegIdx) : CanonicalRow.Statement (.seReg x y) :=
  ⟨⟨"SE_REG", 0xF000, 0x5000⟩, by decide, rfl, masked_wordNNN _ _⟩

theorem CanonicalRow.ldImm (x : RegIdx) (kk : Byte) : CanonicalRow.Statement (.ldImm x kk) :=
  ⟨⟨"LD_IMM", 0xF000, 0x6000⟩, by decide, rfl, masked_wordNNN _ _⟩

theorem CanonicalRow.addImm (x : RegIdx) (kk : Byte) : CanonicalRow.Statement (.addImm x kk) :=
  ⟨⟨"ADD_IMM", 0xF000, 0x7000⟩, by decide, rfl, masked_wordNNN _ _⟩

theorem CanonicalRow.ldReg (x y : RegIdx) : CanonicalRow.Statement (.ldReg x y) :=
  ⟨⟨"LD_REG", 0xF00F, 0x8000⟩, by decide, rfl, masked_wordXYN _ _ _ _⟩

theorem CanonicalRow.orReg (x y : RegIdx) : CanonicalRow.Statement (.orReg x y) :=
  ⟨⟨"OR", 0xF00F, 0x8001⟩, by decide, rfl, masked_wordXYN _ _ _ _⟩

theorem CanonicalRow.andReg (x y : RegIdx) : CanonicalRow.Statement (.andReg x y) :=
  ⟨⟨"AND", 0xF00F, 0x8002⟩, by decide, rfl, masked_wordXYN _ _ _ _⟩

theorem CanonicalRow.xorReg (x y : RegIdx) : CanonicalRow.Statement (.xorReg x y) :=
  ⟨⟨"XOR", 0xF00F, 0x8003⟩, by decide, rfl, masked_wordXYN _ _ _ _⟩

theorem CanonicalRow.addReg (x y : RegIdx) : CanonicalRow.Statement (.addReg x y) :=
  ⟨⟨"ADD_REG", 0xF00F, 0x8004⟩, by decide, rfl, masked_wordXYN _ _ _ _⟩

theorem CanonicalRow.sub (x y : RegIdx) : CanonicalRow.Statement (.sub x y) :=
  ⟨⟨"SUB", 0xF00F, 0x8005⟩, by decide, rfl, masked_wordXYN _ _ _ _⟩

theorem CanonicalRow.shr (x y : RegIdx) : CanonicalRow.Statement (.shr x y) :=
  ⟨⟨"SHR", 0xF00F, 0x8006⟩, by decide, rfl, masked_wordXYN _ _ _ _⟩

theorem CanonicalRow.subn (x y : RegIdx) : CanonicalRow.Statement (.subn x y) :=
  ⟨⟨"SUBN", 0xF00F, 0x8007⟩, by decide, rfl, masked_wordXYN _ _ _ _⟩

theorem CanonicalRow.shl (x y : RegIdx) : CanonicalRow.Statement (.shl x y) :=
  ⟨⟨"SHL", 0xF00F, 0x800E⟩, by decide, rfl, masked_wordXYN _ _ _ _⟩

theorem CanonicalRow.sneReg (x y : RegIdx) : CanonicalRow.Statement (.sneReg x y) :=
  ⟨⟨"SNE_REG", 0xF000, 0x9000⟩, by decide, rfl, masked_wordNNN _ _⟩

theorem CanonicalRow.ldI (nnn : BitVec 12) : CanonicalRow.Statement (.ldI nnn) :=
  ⟨⟨"LD_I", 0xF000, 0xA000⟩, by decide, rfl, masked_wordNNN _ _⟩

theorem CanonicalRow.jpV0 (nnn : BitVec 12) : CanonicalRow.Statement (.jpV0 nnn) :=
  ⟨⟨"JP_V0", 0xF000, 0xB000⟩, by decide, rfl, masked_wordNNN _ _⟩

theorem CanonicalRow.rnd (x : RegIdx) (kk : Byte) : CanonicalRow.Statement (.rnd x kk) :=
  ⟨⟨"RND", 0xF000, 0xC000⟩, by decide, rfl, masked_wordNNN _ _⟩

theorem CanonicalRow.drw (x y : RegIdx) (n : Nibble) : CanonicalRow.Statement (.drw x y n) :=
  ⟨⟨"DRW", 0xF000, 0xD000⟩, by decide, rfl, masked_wordNNN _ _⟩

theorem CanonicalRow.skp (x : RegIdx) : CanonicalRow.Statement (.skp x) :=
  ⟨⟨"SKP", 0xF0FF, 0xE09E⟩, by decide, rfl, masked_wordXKK _ _ _⟩

theorem CanonicalRow.sknp (x : RegIdx) : CanonicalRow.Statement (.sknp x) :=
  ⟨⟨"SKNP", 0xF0FF, 0xE0A1⟩, by decide, rfl, masked_wordXKK _ _ _⟩

theorem CanonicalRow.ldVxDt (x : RegIdx) : CanonicalRow.Statement (.ldVxDt x) :=
  ⟨⟨"LD_VX_DT", 0xF0FF, 0xF007⟩, by decide, rfl, masked_wordXKK _ _ _⟩

theorem CanonicalRow.ldVxK (x : RegIdx) : CanonicalRow.Statement (.ldVxK x) :=
  ⟨⟨"LD_VX_K", 0xF0FF, 0xF00A⟩, by decide, rfl, masked_wordXKK _ _ _⟩

theorem CanonicalRow.ldDtVx (x : RegIdx) : CanonicalRow.Statement (.ldDtVx x) :=
  ⟨⟨"LD_DT_VX", 0xF0FF, 0xF015⟩, by decide, rfl, masked_wordXKK _ _ _⟩

theorem CanonicalRow.ldStVx (x : RegIdx) : CanonicalRow.Statement (.ldStVx x) :=
  ⟨⟨"LD_ST_VX", 0xF0FF, 0xF018⟩, by decide, rfl, masked_wordXKK _ _ _⟩

theorem CanonicalRow.addI (x : RegIdx) : CanonicalRow.Statement (.addI x) :=
  ⟨⟨"ADD_I", 0xF0FF, 0xF01E⟩, by decide, rfl, masked_wordXKK _ _ _⟩

theorem CanonicalRow.ldF (x : RegIdx) : CanonicalRow.Statement (.ldF x) :=
  ⟨⟨"LD_F", 0xF0FF, 0xF029⟩, by decide, rfl, masked_wordXKK _ _ _⟩

theorem CanonicalRow.ldB (x : RegIdx) : CanonicalRow.Statement (.ldB x) :=
  ⟨⟨"LD_B", 0xF0FF, 0xF033⟩, by decide, rfl, masked_wordXKK _ _ _⟩

theorem CanonicalRow.stRegs (x : RegIdx) : CanonicalRow.Statement (.stRegs x) :=
  ⟨⟨"ST_REGS", 0xF0FF, 0xF055⟩, by decide, rfl, masked_wordXKK _ _ _⟩

theorem CanonicalRow.ldRegs (x : RegIdx) : CanonicalRow.Statement (.ldRegs x) :=
  ⟨⟨"LD_REGS", 0xF0FF, 0xF065⟩, by decide, rfl, masked_wordXKK _ _ _⟩

end Sys2Proof.Laws
end

