-- ==== Sys2Proof/Laws/Step.lean ====
section
/-! SUPPORT. What a cycle does around the handler, said once. -/

namespace Sys2Proof.Machine

/-! ### Key sampling (R91) -/

theorem sampleKeys_eq (s : State) :
    s.sampleKeys = { s with keys := s.keyIn.head?.getD s.keys, keyIn := s.keyIn.tail } := by
  unfold State.sampleKeys
  cases h : s.keyIn <;> simp_all <;> (cases s; simp_all)

theorem fetchWord_sampleKeys (s : State) : s.sampleKeys.fetchWord = s.fetchWord := by rw [sampleKeys_eq]; rfl

/-! ### Before the handler (R90) -/

/-- The state in which the handler of a cycle runs. -/
theorem beginCycle_eq (s : State) :
    s.beginCycle =
      { s with keys := s.keyIn.head?.getD s.keys, keyIn := s.keyIn.tail, ir := s.fetchWord, pc := s.pc + 2 } := by
  unfold State.beginCycle State.fetchAdvance
  rw [fetchWord_sampleKeys, sampleKeys_eq]

theorem beginCycle_ir (s : State) : s.beginCycle.ir = s.fetchWord := by rw [beginCycle_eq]

theorem readByte_beginCycle (s : State) (a : Nat) : s.beginCycle.readByte a = s.readByte a := by rw [beginCycle_eq]; rfl

theorem readV_beginCycle (s : State) (r : RegIdx) : s.beginCycle.readV r = s.readV r := by rw [beginCycle_eq]; rfl

/-! ### The whole cycle -/

theorem endCycle_eq_next {o : Host.Outcome State Fault Refusal} {t : State} :
    endCycle o = .next t ↔ ∃ u, o = .next u ∧ t = u.tick := by
  cases o <;> simp [endCycle, eq_comm]

/-- A step that answers a next state ran one handler, or none for an unassigned word, and then ticked. -/
theorem step_cases {s t : State} (h : step s = .next t) :
    (∃ i u, decodeWord s.fetchWord = .ok i ∧ exec i s.beginCycle = .next u ∧ t = u.tick) ∨
    (∃ e, decodeWord s.fetchWord = .error e ∧ t = s.beginCycle.tick) := by
  unfold step at h
  rw [beginCycle_ir] at h
  split at h
  · rename_i i hi
    obtain ⟨u, hu, rfl⟩ := endCycle_eq_next.mp h
    exact .inl ⟨i, u, hi, hu, rfl⟩
  · rename_i e he
    obtain ⟨u, hu, rfl⟩ := endCycle_eq_next.mp h
    cases hu
    exact .inr ⟨e, he, rfl⟩

/-! ### Runs -/

/-- A run of one cycle more is a cycle and then the run. -/
theorem run_of_next {k : Nat} {s u : State} (h : step s = .next u) :
    Host.Core.run Sys2Proof.core (k + 1) s = Host.Core.run Sys2Proof.core k u := by
  have h' : Sys2Proof.core.step s = .next u := h
  simp only [Host.Core.run, h']

end Sys2Proof.Machine
end

