-- ==== Sys2Proof/Tests/Slice0.lean ====
section
/-! SUPPORT. Small tests: what the well-formedness checks refuse, one word written out from the spec for each instruction, at most two
single cycles for each instruction, with results from spec/95_test_vectors.md (named in each comment), and for each statement with
hypotheses a concrete case that meets them. -/

namespace Sys2Proof.Tests

open Sys2Proof Sys2Proof.Machine

/-! ### Helpers -/

/-- The reset state with registers set. -/
def regs (l : List (RegIdx × Byte)) : State := l.foldl (fun s p => s.writeV p.1 p.2) State.reset

/-- The next cycle runs the word `w`. -/
def placed (w : Nat) (s : State) : State := s.withFetchWord 16 w

/-- The keys of a list are down. -/
def keysDown (l : List KeyIdx) : Keys := Vector.ofFn fun k => decide (k ∈ l)

/-- A stack with `n` slots in use, each holding `a`. -/
def stacked (n : Fin 17) (a : Word) : State := { State.reset with stack := Vector.replicate 16 a, sp := n }

/-- The next cycle completes and its result meets `p`. -/
def sees (s : State) (p : State → Bool) : Bool :=
  match step s with
  | .next t => p t
  | .fault _ => false
  | .refused _ => false

/-- `V0` is `b` and the next two words are `F015` and `F107`. -/
def delayProgram (b : Byte) : State := (regs [(0, b)]).storeBytes 0x200 [0xF0, 0x15, 0xF1, 0x07]

/-- As `delayProgram` with `6200` in between. -/
def delayLoop (b : Byte) : State := (regs [(0, b)]).storeBytes 0x200 [0xF0, 0x15, 0x62, 0x00, 0xF1, 0x07]

/-- A font that is not the default: every byte of glyph 0xF is 0x18. -/
def otherFont : FontTable := defaultFont.set 15 (Vector.replicate 5 0x18)

/-- The first eight cells of the top row are lit and `I` names a row of eight 1 bits. -/
def litScreen : State := { State.reset with i := 0x300, fb := Framebuffer.dark.set 0 0xFF }.storeBytes 0x300 [0xFF]

/-! ### What the well-formedness checks refuse (R232, R79, log 32) -/

theorem test_image_empty_refused : RomImage.wellFormed [] = false ∧ RomImage.isEmpty [] = true := by decide

theorem test_image_oversized_refused :
    RomImage.isOversized (List.replicate 3585 0) = true ∧ RomImage.wellFormed (List.replicate 3585 0) = false := by
  simp only [RomImage.isOversized, RomImage.wellFormed, RomImage.isEmpty, List.length_replicate]
  decide

theorem test_image_largest_accepted : RomImage.wellFormed (List.replicate 3584 0) = true := by
  simp only [RomImage.wellFormed, RomImage.isEmpty, RomImage.isOversized, List.length_replicate]
  decide

theorem test_image_smallest_accepted : RomImage.wellFormed [0x12] = true := by decide

theorem test_memory_unsorted_refused : ¬ Memory.wf [(0x300, 1), (0x200, 1)] := by decide

theorem test_memory_repeated_refused : ¬ Memory.wf [(0x300, 1), (0x300, 2)] := by decide

theorem test_memory_redundant_refused : ¬ Memory.wf [(0x300, 0)] ∧ ¬ Memory.wf [(0x050, 0xF0)] := by decide

theorem test_memory_outside_refused : ¬ Memory.wf [(4096, 1)] := by decide

theorem test_memory_accepted : Memory.wf [(0x050, 0), (0x300, 1)] := by decide

/-- Words that decode but are not canonical, and a word that does not decode (R79, R81). -/
theorem test_noncanonical_refused :
    isCanonicalWord 0x01E0 = false ∧ isCanonicalWord 0x5347 = false ∧ isCanonicalWord 0x934F = false ∧
    isCanonicalWord 0x8AB8 = false ∧ isCanonicalWord 0x00E0 = true := by decide

theorem test_truncated_refused : decodeBytes [0x12] = .error .truncated ∧ decodeBytes [] = .error .truncated := by
  and_intros <;> rfl

/-! ### A word of each constructor, written out from the opcode map (R85) -/

theorem test_decode_control :
    decodeWord 0x00E0 = .ok (.cls) ∧
    decodeWord 0x00EE = .ok (.ret) ∧
    decodeWord 0x1ABC = .ok (.jp 0xABC) ∧
    decodeWord 0x2ABC = .ok (.call 0xABC) ∧
    decodeWord 0xB300 = .ok (.jpV0 0x300) := by
  and_intros <;> rfl

theorem test_encode_control :
    encode (.cls) = 0x00E0 ∧
    encode (.ret) = 0x00EE ∧
    encode (.jp 0xABC) = 0x1ABC ∧
    encode (.call 0xABC) = 0x2ABC ∧
    encode (.jpV0 0x300) = 0xB300 := by
  and_intros <;> rfl

theorem test_decode_skips :
    decodeWord 0x3A42 = .ok (.seImm 0xA 0x42) ∧
    decodeWord 0x4A42 = .ok (.sneImm 0xA 0x42) ∧
    decodeWord 0x5340 = .ok (.seReg 3 4) ∧
    decodeWord 0x9340 = .ok (.sneReg 3 4) := by
  and_intros <;> rfl

theorem test_encode_skips :
    encode (.seImm 0xA 0x42) = 0x3A42 ∧
    encode (.sneImm 0xA 0x42) = 0x4A42 ∧
    encode (.seReg 3 4) = 0x5340 ∧
    encode (.sneReg 3 4) = 0x9340 := by
  and_intros <;> rfl

theorem test_decode_loads :
    decodeWord 0x6AFF = .ok (.ldImm 0xA 0xFF) ∧
    decodeWord 0x7A01 = .ok (.addImm 0xA 0x01) ∧
    decodeWord 0xA123 = .ok (.ldI 0x123) := by
  and_intros <;> rfl

theorem test_encode_loads :
    encode (.ldImm 0xA 0xFF) = 0x6AFF ∧
    encode (.addImm 0xA 0x01) = 0x7A01 ∧
    encode (.ldI 0x123) = 0xA123 := by
  and_intros <;> rfl

theorem test_decode_register_pairs :
    decodeWord 0x8AB0 = .ok (.ldReg 0xA 0xB) ∧
    decodeWord 0x8AB1 = .ok (.orReg 0xA 0xB) ∧
    decodeWord 0x8AB2 = .ok (.andReg 0xA 0xB) ∧
    decodeWord 0x8AB3 = .ok (.xorReg 0xA 0xB) ∧
    decodeWord 0x8AB4 = .ok (.addReg 0xA 0xB) ∧
    decodeWord 0x8AB5 = .ok (.sub 0xA 0xB) ∧
    decodeWord 0x8AB6 = .ok (.shr 0xA 0xB) ∧
    decodeWord 0x8AB7 = .ok (.subn 0xA 0xB) ∧
    decodeWord 0x8ABE = .ok (.shl 0xA 0xB) := by
  and_intros <;> rfl

theorem test_encode_register_pairs :
    encode (.ldReg 0xA 0xB) = 0x8AB0 ∧
    encode (.orReg 0xA 0xB) = 0x8AB1 ∧
    encode (.andReg 0xA 0xB) = 0x8AB2 ∧
    encode (.xorReg 0xA 0xB) = 0x8AB3 ∧
    encode (.addReg 0xA 0xB) = 0x8AB4 ∧
    encode (.sub 0xA 0xB) = 0x8AB5 ∧
    encode (.shr 0xA 0xB) = 0x8AB6 ∧
    encode (.subn 0xA 0xB) = 0x8AB7 ∧
    encode (.shl 0xA 0xB) = 0x8ABE := by
  and_intros <;> rfl

theorem test_decode_random_and_draw :
    decodeWord 0xC30F = .ok (.rnd 3 0x0F) ∧
    decodeWord 0xD7A5 = .ok (.drw 7 0xA 5) := by
  and_intros <;> rfl

theorem test_encode_random_and_draw :
    encode (.rnd 3 0x0F) = 0xC30F ∧
    encode (.drw 7 0xA 5) = 0xD7A5 := by
  and_intros <;> rfl

theorem test_decode_keys :
    decodeWord 0xEA9E = .ok (.skp 0xA) ∧
    decodeWord 0xEAA1 = .ok (.sknp 0xA) := by
  and_intros <;> rfl

theorem test_encode_keys :
    encode (.skp 0xA) = 0xEA9E ∧
    encode (.sknp 0xA) = 0xEAA1 := by
  and_intros <;> rfl

theorem test_decode_family_f :
    decodeWord 0xFA07 = .ok (.ldVxDt 0xA) ∧
    decodeWord 0xFA0A = .ok (.ldVxK 0xA) ∧
    decodeWord 0xFA15 = .ok (.ldDtVx 0xA) ∧
    decodeWord 0xFA18 = .ok (.ldStVx 0xA) ∧
    decodeWord 0xFA1E = .ok (.addI 0xA) ∧
    decodeWord 0xFA29 = .ok (.ldF 0xA) ∧
    decodeWord 0xFA33 = .ok (.ldB 0xA) ∧
    decodeWord 0xF355 = .ok (.stRegs 3) ∧
    decodeWord 0xF265 = .ok (.ldRegs 2) := by
  and_intros <;> rfl

theorem test_encode_family_f :
    encode (.ldVxDt 0xA) = 0xFA07 ∧
    encode (.ldVxK 0xA) = 0xFA0A ∧
    encode (.ldDtVx 0xA) = 0xFA15 ∧
    encode (.ldStVx 0xA) = 0xFA18 ∧
    encode (.addI 0xA) = 0xFA1E ∧
    encode (.ldF 0xA) = 0xFA29 ∧
    encode (.ldB 0xA) = 0xFA33 ∧
    encode (.stRegs 3) = 0xF355 ∧
    encode (.ldRegs 2) = 0xF265 := by
  and_intros <;> rfl

/-- The ignored bits do not change what a word decodes to (R79; vectors Y8, C4, S8, S12). -/
theorem test_decode_ignored_bits :
    decodeWord 0x01E0 = .ok .cls ∧ decodeWord 0x05EE = .ok .ret ∧ decodeWord 0x5347 = .ok (.seReg 3 4) ∧
    decodeWord 0x934F = .ok (.sneReg 3 4) := by
  and_intros <;> rfl

/-- Unassigned words of each sparse family, at the edges of the ranges of R81 (vectors Y1 to Y7, K7, K8). -/
theorem test_decode_unassigned :
    decodeWord 0x0000 = .error (.unassigned0 0) ∧ decodeWord 0x00EF = .error (.unassigned0 0xEF) ∧
    decodeWord 0x8AB8 = .error (.unassigned8 8) ∧ decodeWord 0x8ABD = .error (.unassigned8 0xD) ∧
    decodeWord 0x8ABF = .error (.unassigned8 0xF) ∧ decodeWord 0xEA9F = .error (.unassignedE 0x9F) ∧
    decodeWord 0xE000 = .error (.unassignedE 0) ∧ decodeWord 0xF0FF = .error (.unassignedF 0xFF) := by
  and_intros <;> rfl

/-- The word is read high byte first (R52, the big-endian check of 95_test_vectors.md). -/
theorem test_decode_bytes_big_endian : decodeBytes [0xA1, 0x23, 0x55] = .ok (.ldI 0x123, [0x55]) := rfl

theorem test_decode_table_word : decodeTableWord 16 0xD7A5 = some (.drw 7 0xA 5) ∧ decodeTableWord 16 0x8AB8 = none := by
  decide

/-! ### Single cycles -/

/-- Vector G1. -/
theorem test_cls :
    sees (placed 0x00E0 { regs [(15, 1)] with fb := (Framebuffer.dark.toggle 0 0).toggle 63 31 })
      (fun t => t.fb == .dark && t.readV 15 == 1 && t.pc == 0x202) = true := by decide

/-- Vector C1. -/
theorem test_ret :
    sees (placed 0x00EE { stacked 2 0x202 with stack := (Vector.replicate 16 0x202).set 1 0xABC })
      (fun t => t.pc == 0xABC && t.sp == 1 && t.stack[1] == 0xABC) = true := by decide

/-- Vector C3. -/
theorem test_ret_empty :
    sees (placed 0x00EE { State.reset with cef := .stackOverflow })
      (fun t => t.pc == 0 && t.cef == .stackUnderflow && t.sp == 0) = true := by decide

/-- Vector C5. -/
theorem test_jp : sees (placed 0x1ABC State.reset) (fun t => t.pc == 0xABC) = true := by decide

/-- Vector C9. -/
theorem test_call :
    sees (placed 0x2ABC { stacked 15 0 with pc := 0x300 })
      (fun t => t.pc == 0xABC && t.stack[15] == 0x302 && t.sp == 16 && t.cef == .noFault) = true := by decide

/-- Vector C10. -/
theorem test_call_full :
    sees (placed 0x2ABC { stacked 16 0x222 with pc := 0x300 })
      (fun t => t.pc == 0xABC && t.stack[15] == 0x222 && t.sp == 16 && t.cef == .stackOverflow) = true := by decide

/-- Vector C13. -/
theorem test_jpV0 : sees (placed 0xBFFF (regs [(0, 0xFF)])) (fun t => t.pc == 0x10FE) = true := by decide

/-- Vector S1. -/
theorem test_seImm : sees (placed 0x3A42 (regs [(10, 0x42)])) (fun t => t.pc == 0x204) = true := by decide

/-- Vector S15. -/
theorem test_seImm_wraps : sees (placed 0x3000 { State.reset with pc := 0xFFFC }) (fun t => t.pc == 0) = true := by decide

/-- Vector S3. -/
theorem test_sneImm : sees (placed 0x4A42 (regs [(10, 0x42)])) (fun t => t.pc == 0x202) = true := by decide

/-- Vector S4. -/
theorem test_sneImm_skips : sees (placed 0x4A42 (regs [(10, 0x43)])) (fun t => t.pc == 0x204) = true := by decide

/-- Vector S6. -/
theorem test_seReg : sees (placed 0x5340 (regs [(3, 0x2A), (4, 0x2B)])) (fun t => t.pc == 0x202) = true := by decide

/-- Vector S8. -/
theorem test_seReg_low_nibble : sees (placed 0x5347 (regs [(3, 0x2A), (4, 0x2A)])) (fun t => t.pc == 0x204) = true := by decide

/-- Vector S9. -/
theorem test_sneReg : sees (placed 0x9340 (regs [(3, 0x2A), (4, 0x2A)])) (fun t => t.pc == 0x202) = true := by decide

/-- Vector S10. -/
theorem test_sneReg_skips : sees (placed 0x9340 (regs [(3, 0x2A), (4, 0x2B)])) (fun t => t.pc == 0x204) = true := by decide

/-- Vector A2. -/
theorem test_ldImm : sees (placed 0x6F07 (regs [(15, 1)])) (fun t => t.readV 15 == 7 && t.pc == 0x202) = true := by decide

/-- Vector Y10. -/
theorem test_ldImm_fetch_wraps :
    sees (placed 0x6A11 { State.reset with pc := 0xFFF })
      (fun t => t.readV 10 == 0x11 && t.pc == 0x1001 && t.readByte 0 == 0x11) = true := by decide

/-- Vector A5. -/
theorem test_addImm : sees (placed 0x7A01 (regs [(10, 255), (15, 1)])) (fun t => t.readV 10 == 0 && t.readV 15 == 1) = true := by decide

/-- Vector A8. -/
theorem test_ldReg :
    sees (placed 0x8AB0 (regs [(10, 1), (11, 0x99)]))
      (fun t => t.readV 10 == 0x99 && t.readV 11 == 0x99) = true := by decide

/-- Vector A10. -/
theorem test_orReg :
    sees (placed 0x8AB1 (regs [(10, 0xF0), (11, 0x0F), (15, 1)]))
      (fun t => t.readV 10 == 0xFF && t.readV 15 == 1) = true := by decide

/-- Vector A11. -/
theorem test_andReg :
    sees (placed 0x8AB2 (regs [(10, 0xF0), (11, 0x3C), (15, 1)]))
      (fun t => t.readV 10 == 0x30 && t.readV 15 == 1) = true := by decide

/-- Vector A12. -/
theorem test_xorReg :
    sees (placed 0x8AB3 (regs [(10, 0xFF), (11, 0x0F), (15, 1)]))
      (fun t => t.readV 10 == 0xF0 && t.readV 15 == 1) = true := by decide

/-- Vector A14. -/
theorem test_addReg : sees (placed 0x8AB4 (regs [(10, 200), (11, 100)])) (fun t => t.readV 10 == 44 && t.readV 15 == 1) = true := by decide

/-- Vector A40. -/
theorem test_addReg_into_flag : sees (placed 0x8F14 (regs [(15, 200), (1, 100)])) (fun t => t.readV 15 == 44) = true := by decide

/-- Vector A21. -/
theorem test_sub : sees (placed 0x8AB5 (regs [(10, 5), (11, 10)])) (fun t => t.readV 10 == 251 && t.readV 15 == 0) = true := by decide

/-- Vector A44. -/
theorem test_sub_flag_operand :
    sees (placed 0x81F5 (regs [(1, 10), (15, 5)]))
      (fun t => t.readV 1 == 9 && t.readV 15 == 1) = true := by decide

/-- Vector A26. -/
theorem test_shr :
    sees (placed 0x8AB6 (regs [(10, 5), (11, 0xFF)]))
      (fun t => t.readV 10 == 2 && t.readV 15 == 1 && t.readV 11 == 0xFF) = true := by decide

/-- Vector A46. -/
theorem test_shr_flag : sees (placed 0x8F06 (regs [(15, 0xFF)])) (fun t => t.readV 15 == 0) = true := by decide

/-- Vector A31. -/
theorem test_subn : sees (placed 0x8AB7 (regs [(10, 5), (11, 10)])) (fun t => t.readV 10 == 5 && t.readV 15 == 1) = true := by decide

/-- Vector A48c. -/
theorem test_subn_flag_operand :
    sees (placed 0x81F7 (regs [(1, 5), (15, 10)]))
      (fun t => t.readV 1 == 252 && t.readV 15 == 1) = true := by decide

/-- Vector A35. -/
theorem test_shl :
    sees (placed 0x8ABE (regs [(10, 0x81), (11, 0xFF)]))
      (fun t => t.readV 10 == 2 && t.readV 15 == 1 && t.readV 11 == 0xFF) = true := by decide

/-- Vector A48. -/
theorem test_shl_flag : sees (placed 0x8F0E (regs [(15, 0x80)])) (fun t => t.readV 15 == 2) = true := by decide

/-- Vector X2. -/
theorem test_ldI : sees (placed 0xAFFF { State.reset with i := 5 }) (fun t => t.i == 0xFFF && t.pc == 0x202) = true := by decide

/-- Vector X4. -/
theorem test_addI : sees (placed 0xFA1E { regs [(10, 1)] with i := 0xFFF }) (fun t => t.i == 0x1000 && t.readV 15 == 0) = true := by decide

/-- Vector X6. -/
theorem test_addI_wraps : sees (placed 0xFA1E { regs [(10, 0xFF)] with i := 0xFF80 }) (fun t => t.i == 0x7F) = true := by decide

/-- Vector X10. -/
theorem test_ldF : sees (placed 0xFA29 (regs [(10, 0xF)])) (fun t => t.i == 0x9B) = true := by decide

/-- Vector X12. -/
theorem test_ldF_no_mask : sees (placed 0xFA29 (regs [(10, 0xFF)])) (fun t => t.i == 0x54B) = true := by decide

/-- Vector X13. -/
theorem test_ldB :
    sees (placed 0xFA33 { regs [(10, 254)] with i := 0x300 })
      (fun t => t.readByte 0x300 == 2 && t.readByte 0x301 == 5 && t.readByte 0x302 == 4) = true := by decide

/-- Vector X18. -/
theorem test_ldB_wraps :
    sees (placed 0xFA33 { regs [(10, 255)] with i := 0xFFF })
      (fun t => t.readByte 0xFFF == 2 && t.readByte 0 == 5 && t.readByte 1 == 5 && t.i == 0xFFF) = true := by decide

/-- Vector X21. -/
theorem test_stRegs :
    sees (placed 0xF355 { regs [(0, 1), (7, 7), (8, 8), (15, 15)] with i := 0xFF8 })
      (fun t => t.readByte 0xFF8 == 1 && t.readByte 0xFFF == 7 && t.readByte 0 == 8 && t.readByte 7 == 15) = true := by decide

/-- Vector X22. -/
theorem test_ldRegs :
    sees (placed 0xF265 ({ regs [(5, 0x77), (15, 1)] with i := 0x300 }.storeBytes 0x300 [2, 5, 4]))
      (fun t => t.readV 0 == 2 && t.readV 1 == 5 && t.readV 2 == 4 && t.readV 5 == 0 && t.readV 15 == 0 && t.i == 0x300) = true := by decide

/-- Vector T4, the draw injected. -/
theorem test_rnd :
    sees (placed 0xCFF0 (injectRandom [0x5C, 0x11] State.reset))
      (fun t => t.readV 15 == 0x50 && t.rng.injected == [0x11]) = true := by decide

/-- Vector T2, the draw free. -/
theorem test_rnd_mask_zero : sees (placed 0xCA00 (State.reset)) (fun t => t.rng.draws == 1 && t.pc == 0x202) = true := by decide

/-- Vector G5. -/
theorem test_drw_wraps :
    sees (placed 0xD012 ({ regs [(0, 62), (1, 31)] with i := 0x300 }.storeBytes 0x300 [0xFF, 0x81]))
      (fun t => t.fb.cell 62 31 && t.fb.cell 5 31 && !t.fb.cell 6 31 && t.fb.cell 62 0 && t.fb.cell 5 0 && !t.fb.cell 63 0 && t.readV 15 == 0) = true := by decide

/-- Vector G4. -/
theorem test_drw_collides :
    sees (placed 0xD011 ({ State.reset with i := 0x300, fb := Framebuffer.dark.toggle 1 0 }.storeBytes 0x300 [0xC0]))
      (fun t => t.fb == Framebuffer.dark.toggle 0 0 && t.readV 15 == 1) = true := by decide

/-- Vector K3, the key number is the low nibble. -/
theorem test_skp : sees (placed 0xEA9E { regs [(10, 0x17)] with keyIn := [keysDown [7]] }) (fun t => t.pc == 0x204) = true := by decide

/-- Vector K2. -/
theorem test_skp_other_key :
    sees (placed 0xEA9E { regs [(10, 7)] with keyIn := [keysDown [6]] })
      (fun t => t.pc == 0x202) = true := by decide

/-- Vector K4. -/
theorem test_sknp : sees (placed 0xEAA1 { regs [(10, 7)] with keyIn := [keysDown [7]] }) (fun t => t.pc == 0x202) = true := by decide

/-- Vector K5. -/
theorem test_sknp_skips : sees (placed 0xEAA1 { regs [(10, 7)] with keyIn := [keysDown []] }) (fun t => t.pc == 0x204) = true := by decide

/-- Vector K11. -/
theorem test_ldVxK :
    sees (placed 0xFA0A { State.reset with keyIn := [keysDown [3, 9]] })
      (fun t => t.readV 10 == 3 && t.pc == 0x202) = true := by decide

/-- Vector T15. -/
theorem test_ldVxK_waits :
    sees (placed 0xFA0A { regs [(10, 0x99)] with dt := 2, st := 1 })
      (fun t => t.readV 10 == 0x99 && t.pc == 0x200 && t.dt == 1 && t.st == 0) = true := by decide

/-- Vector T5. -/
theorem test_ldVxDt : sees (placed 0xFA07 { State.reset with dt := 9 }) (fun t => t.readV 10 == 9 && t.dt == 8) = true := by decide

/-- Vector T8. -/
theorem test_ldDtVx : sees (placed 0xFA15 (regs [(10, 3)])) (fun t => t.dt == 2) = true := by decide

/-- Vector T9. -/
theorem test_ldDtVx_zero : sees (placed 0xFA15 { State.reset with dt := 9 }) (fun t => t.dt == 0) = true := by decide

/-- Vector T14. -/
theorem test_ldStVx : sees (placed 0xFA18 { regs [(10, 255)] with dt := 1 }) (fun t => t.st == 254 && t.dt == 0) = true := by decide

/-- Vector Y1. -/
theorem test_unassigned :
    sees (placed 0x8AB8 { regs [(10, 1), (11, 2)] with dt := 5, st := 1 })
      (fun t => t.pc == 0x202 && t.dt == 4 && t.st == 0 && t.readV 10 == 1 && t.readV 11 == 2 && t.readV 15 == 0) = true := by decide

/-- The source's example E5 with the default font: glyphs 0, 7 and 0xF. -/
theorem test_font_default :
    [0, 7, 15].map (fun k => (List.range 5).map fun r => (State.resetWith defaultFont 0).readByte (0x50 + 5 * k + r)) =
      [[0xF0, 0x90, 0x90, 0x90, 0xF0], [0xF0, 0x10, 0x20, 0x40, 0x40], [0xF0, 0x80, 0xF0, 0x80, 0x80]] := by
  simp only [State.resetWith, loadFont_eq]
  decide

/-- The font table is an argument (R3, R37): another glyph 0xF is in memory at 0x09B to 0x09F, and nothing else moves. -/
theorem test_font_argument :
    (State.resetWith otherFont 0).mem = [(0x9B, 0x18), (0x9C, 0x18), (0x9D, 0x18), (0x9E, 0x18), (0x9F, 0x18)] ∧
    (State.resetWith otherFont 0).readByte 0x9A = 0xF0 ∧ (State.resetWith otherFont 0).readByte 0xA0 = 0 := by
  simp only [State.resetWith, loadFont_eq]
  decide

/-! ### Statements with hypotheses: a case that meets them -/

/-- The cycle of `placed w s` ends in a next state (for the statements over a cycle). -/
theorem test_witness_cycle : ∃ t, step (placed 0x6A11 State.reset) = .next t := ⟨_, rfl⟩

/-- One word for each clause: bits 11:8, bits 3:0, none ignored. -/
theorem test_witness_EncodeOfDecodeIsCanonical :
    decodeWord 0x05EE = .ok .ret ∧ decodeWord 0x5347 = .ok (.seReg 3 4) ∧ decodeWord 0x8AB5 = .ok (.sub 0xA 0xB) := by
  and_intros <;> rfl

theorem test_witness_DecoderFollowsOpcodeMap :
    decodeWord 0xD7A5 = .ok (.drw 7 0xA 5) ∧ (0xD7A5 : Word) &&& 0xF000 = 0xD000 ∧ ⟨"DRW", 0xF000, 0xD000⟩ ∈ opcodeMap := ⟨rfl, by decide, by decide⟩

theorem test_witness_StepRunsDecodedInstruction :
    (placed 0x1ABC State.reset).fetchWord = 0x1ABC ∧ decodeWord 0x1ABC = .ok (.jp 0xABC) ∧
    ∃ t, exec (.jp 0xABC) (placed 0x1ABC State.reset).beginCycle = .next t := ⟨by decide, rfl, _, rfl⟩

theorem test_witness_UnassignedWordOnlyAdvances :
    (placed 0x8AB8 State.reset).fetchWord = 0x8AB8 ∧ decodeWord 0x8AB8 = .error (.unassigned8 8) := by
  and_intros <;> rfl

/-- A cycle for each clause: each timer set, the delay timer read, no timer named, no instruction at all. -/
theorem test_witness_TimersTickOncePerCycle :
    (placed 0xFA15 State.reset).nextInstr = some (.ldDtVx 10) ∧ (placed 0xFA18 State.reset).nextInstr = some (.ldStVx 10) ∧
    (placed 0xFA07 State.reset).nextInstr = some (.ldVxDt 10) ∧ (placed 0x1ABC State.reset).nextInstr = some (.jp 0xABC) ∧
    (placed 0x8AB8 State.reset).nextInstr = none := by decide

theorem test_witness_PcAdvancesByTwoExcept :
    (placed 0x00EE State.reset).nextInstr = some .ret ∧ (placed 0x3A00 State.reset).nextInstr = some (.seImm 10 0) ∧
    (placed 0xFA0A State.reset).nextInstr = some (.ldVxK 10) ∧ (placed 0x6A11 State.reset).nextInstr = some (.ldImm 10 0x11) := by decide

/-- Levels presented, and none presented. -/
theorem test_witness_KeysComeFromTheHost :
    sees (placed 0x6A11 { State.reset with keyIn := [keysDown [0], keysDown [15]] })
      (fun t => t.keys == keysDown [0] && t.keyIn == [keysDown [15]]) = true ∧
    sees (placed 0x6A11 { State.reset with keys := keysDown [3] }) (fun t => t.keys == keysDown [3] && t.keyIn == []) = true := by decide

theorem test_witness_OnlyOwnersWriteState :
    ∃ t, exec (.ldB 3) State.reset = .next t := ⟨_, rfl⟩

/-- Each clause at the edges of `SP`. -/
theorem test_witness_ErrorFlagRecordsStackFaultsOnly :
    (placed 0x00EE (stacked 0 0)).nextInstr = some .ret ∧ (stacked 0 0).sp = 0 ∧
    (placed 0x2ABC (stacked 16 0)).nextInstr = some (.call 0xABC) ∧ (stacked 16 0).sp = 16 ∧
    (placed 0x00EE (stacked 1 0)).nextInstr = some .ret ∧ (stacked 1 0).sp ≠ 0 ∧
    (placed 0x2ABC (stacked 15 0)).nextInstr = some (.call 0xABC) ∧ (stacked 15 0).sp ≠ 16 := by decide

theorem test_witness_GoneWrongStaysGoneWrong :
    (∃ t, Host.Core.run Sys2Proof.core 1 { State.reset with cef := .stackOverflow } = .next t) ∧
    ({ State.reset with cef := .stackOverflow } : State).GoneWrong := ⟨⟨_, rfl⟩, CriticalError.noConfusion⟩

theorem test_witness_StepKeepsInvariant :
    (placed 0xFA33 State.reset).Inv ∧ ∃ t, step (placed 0xFA33 State.reset) = .next t := ⟨storeBytes_wf _ _ nil_wf, _, rfl⟩

theorem test_witness_ReachableStatesAreSafe :
    ∃ s, Reachable s := ⟨_, .keys (keysDown [7]) (.boot (font := defaultFont) (seed := 3) (image := [0x12, 0x00]) rfl)⟩

/-- Two states that differ in each of the four parts. -/
theorem test_witness_UnobservableStateInfluencesNothing :
    SameToProgram (stacked 2 7) { stacked 2 7 with st := 9, ir := 5, cef := .stackOverflow, stack := (Vector.replicate 16 7).set 2 1 } := by
  refine ⟨rfl, rfl, rfl, rfl, rfl, ?_, rfl, rfl, rfl, rfl, rfl⟩
  decide

/-- `F015` then `F107`, with `V0` = 7. -/
theorem test_witness_DelayTimerReadsElapsedCycles :
    (delayProgram 7).nextInstr = some (.ldDtVx 0) ∧ ∃ u, step (delayProgram 7) = .next u ∧
    RunAvoids (fun i => i matches .ldDtVx _) 0 u u ∧ u.nextInstr = some (.ldVxDt 1) ∧ ∃ w, step u = .next w := ⟨by decide, _, rfl, rfl, by decide, _, rfl⟩

/-- `F015`, `6200`, `F107`: a run with a cycle in between, whose instruction is not `Fx15`. -/
theorem test_witness_DelayTimerReadsElapsedCycles_after_two :
    (delayLoop 7).nextInstr = some (.ldDtVx 0) ∧ ∃ u t, step (delayLoop 7) = .next u ∧
    RunAvoids (fun i => i matches .ldDtVx _) 1 u t ∧ t.nextInstr = some (.ldVxDt 1) ∧ ∃ w, step t = .next w := by
  refine ⟨by decide, _, _, rfl, ⟨fun i h => ?_, _, rfl, rfl⟩, by decide, _, rfl⟩
  obtain rfl : Instr.ldImm 2 0 = i := Option.some.inj (Eq.trans (by decide) h)
  rfl

theorem test_witness_SelfJumpOnlyTicks :
    (placed 0x1200 State.reset).nextInstr = some (.jp 0x200) ∧ (placed 0x1200 State.reset).pc = (0x200 : BitVec 12).zeroExtend 16 := by decide

theorem test_witness_KeyWaitOnlyTicks :
    (placed 0xFA0A State.reset).nextInstr = some (.ldVxK 10) ∧
    ∀ k : KeyIdx, ((placed 0xFA0A State.reset).keyIn.head?.getD (placed 0xFA0A State.reset).keys)[k] = false := by decide

/-- Serves every statement whose hypotheses are the invariant and one store. -/
theorem test_witness_StoredRegistersAreFetched :
    State.reset.Inv ∧ ∃ t, exec (.stRegs 0) State.reset = .next t := ⟨nil_wf, _, rfl⟩

/-- A word for each row. -/
theorem test_witness_RegisterLoadsAndLogic :
    (0x6AFF : Word) &&& 0xF000 = 0x6000 ∧ (0x7A01 : Word) &&& 0xF000 = 0x7000 ∧ (0x8AB0 : Word) &&& 0xF00F = 0x8000 ∧
    (0x8AB1 : Word) &&& 0xF00F = 0x8001 ∧ (0x8AB2 : Word) &&& 0xF00F = 0x8002 ∧ (0x8AB3 : Word) &&& 0xF00F = 0x8003 := by decide

/-- Both kinds of register number, for the statements that split on `x` or `y` being VF. -/
theorem test_witness_aliasing :
    (1 : RegIdx) ≠ 15 ∧ (15 : RegIdx) = vf := by decide

/-- A word for each row, for JumpTargets, CallPushesReturnAddress, LoadIndexImmediate and TimerMoves. -/
theorem test_witness_JumpTargets :
    (0x1ABC : Word) &&& 0xF000 = 0x1000 ∧ (0xBFFF : Word) &&& 0xF000 = 0xB000 ∧ (0x2ABC : Word) &&& 0xF000 = 0x2000 ∧
    (0xA123 : Word) &&& 0xF000 = 0xA000 ∧ (0xFA07 : Word) &&& 0xF0FF = 0xF007 ∧ (0xFA15 : Word) &&& 0xF0FF = 0xF015 ∧
    (0xFA18 : Word) &&& 0xF0FF = 0xF018 := by decide

theorem test_witness_CallPushesReturnAddress :
    (0 : Fin 16).val = (stacked 0 0).sp.val ∧ (15 : Fin 16).val = (stacked 15 0).sp.val ∧ (stacked 16 0).sp = 16 := by decide

theorem test_witness_ReturnPopsAddress :
    (stacked 0 0).sp = 0 ∧ (0 : Fin 16).val + 1 = (stacked 1 0).sp.val ∧ (15 : Fin 16).val + 1 = (stacked 16 0).sp.val := by decide

theorem test_witness_NestedCallsReturnInOrder :
    (stacked 14 0).sp.val + 2 ≤ 16 ∧ ∃ a b c d, exec (.call 0x300) (stacked 14 0) = .next a ∧ exec (.call 0x400) a = .next b ∧
    exec .ret b = .next c ∧ exec .ret c = .next d := ⟨by decide, _, _, _, _, rfl, rfl, rfl, rfl⟩

theorem test_witness_KeyWaitStoresLeastKey :
    (keysDown [0])[(0 : KeyIdx)] = true ∧ (∀ j : KeyIdx, j < 0 → (keysDown [0])[j] = false) ∧
    (keysDown [15])[(15 : KeyIdx)] = true ∧ (∀ j : KeyIdx, j < 15 → (keysDown [15])[j] = false) ∧
    ∀ k : KeyIdx, (keysDown [])[k] = false := by decide

theorem test_witness_StoreThenLoadRestoresRegisters :
    State.reset.Inv ∧ ∃ t u, exec (.stRegs 0) State.reset = .next t ∧ exec (.ldRegs 1) t = .next u := ⟨nil_wf, _, _, rfl, rfl⟩

theorem test_witness_RandomByteUnderMask :
    (injectRandom [0xA7] State.reset).rng.injected = 0xA7 :: [] ∧ State.reset.rng.injected = [] := by decide

/-- A collision, and a drawing without one. -/
theorem test_witness_SpriteTogglesItsCells :
    (∃ cx cy, cx < 64 ∧ cy < 32 ∧ litScreen.fb.cell cx cy = true ∧ (drawSprite litScreen 0 0 1).1.cell cx cy = false) ∧
    (drawSprite State.reset 0 0 0).1 = State.reset.fb := ⟨⟨0, 0, by decide, by decide, by decide, by decide⟩, rfl⟩

theorem test_witness_DrawingTwiceRestores :
    (0 : RegIdx) ≠ 15 ∧ State.reset.fb = .dark ∧ ∃ t u, exec (.drw 0 1 5) State.reset = .next t ∧ exec (.drw 0 1 5) t = .next u := ⟨by decide, rfl, _, _, rfl, rfl⟩

/-- The bytes just below the three and just above the sixteen. -/
theorem test_witness_FrameStores :
    State.reset.Inv ∧ (∀ k, k < 3 → portAddr 0xFFF ≠ portAddr (State.reset.dataAddr 0 + k)) ∧
    ∀ k, k < 16 → portAddr 0x10 ≠ portAddr (State.reset.dataAddr 0 + k) := ⟨nil_wf, by decide, by decide⟩

theorem test_witness_RomLoadCopiesTheImage :
    State.reset.Inv ∧ ([] : List Byte).length = 0 ∧ 3584 < (List.replicate 3585 (0 : Byte)).length ∧
    0 < [(0x12 : Byte)].length ∧ (List.replicate 3584 (0 : Byte)).length ≤ 3584 := ⟨nil_wf, rfl, by rw [List.length_replicate]; decide, by decide, Nat.le_of_eq List.length_replicate⟩

theorem test_witness_BootFetchesTheImage :
    ∃ s t, boot defaultFont 3 [0x12, 0x00] = .ok s ∧ step s = .next t := by
  simp only [boot, State.resetWith, loadFont_default]
  exact ⟨_, _, rfl, rfl⟩

end Sys2Proof.Tests
end

section
/-! SUPPORT. The frame rules (00_scope.md R8, decision D20): each operation on the state keeps an agreement outside a list of parts
that names what the operation writes. A handler's frame is the rules of its operations, chained from `AgreeOutside.refl`. -/

namespace Sys2Proof.Machine

/-! ### Agreement outside a list of parts -/

theorem AgreeOutside.refl (parts : List Part) (s : State) : AgreeOutside parts s s := by
  constructor <;> intros <;> rfl

section
variable {parts : List Part} {s t : State}

theorem AgreeOutside.writeV (h : AgreeOutside parts s t) (hv : .v ∈ parts) (r : RegIdx) (b : Byte) :
    AgreeOutside parts s (t.writeV r b) := { h with v := absurd hv }

theorem AgreeOutside.set_v (h : AgreeOutside parts s t) (hv : .v ∈ parts) (v : Vector Byte 16) :
    AgreeOutside parts s { t with v := v } := { h with v := absurd hv }

theorem AgreeOutside.jumpTo (h : AgreeOutside parts s t) (hpc : .pc ∈ parts) (w : Word) :
    AgreeOutside parts s (t.jumpTo w) := { h with pc := absurd hpc }

theorem AgreeOutside.skipIf (h : AgreeOutside parts s t) (hpc : .pc ∈ parts) (c : Bool) :
    AgreeOutside parts s (t.skipIf c) := by
  rw [skipIf_eq]
  exact { h with pc := absurd hpc }

theorem AgreeOutside.rewind (h : AgreeOutside parts s t) (hpc : .pc ∈ parts) : AgreeOutside parts s t.rewind :=
  { h with pc := absurd hpc }

theorem AgreeOutside.set_i (h : AgreeOutside parts s t) (hi : .i ∈ parts) (w : Word) :
    AgreeOutside parts s { t with i := w } := { h with i := absurd hi }

theorem AgreeOutside.set_dt (h : AgreeOutside parts s t) (hdt : .dt ∈ parts) (b : Byte) :
    AgreeOutside parts s { t with dt := b } := { h with dt := absurd hdt }

theorem AgreeOutside.set_st (h : AgreeOutside parts s t) (hst : .st ∈ parts) (b : Byte) :
    AgreeOutside parts s { t with st := b } := { h with st := absurd hst }

theorem AgreeOutside.set_fb (h : AgreeOutside parts s t) (hfb : .fb ∈ parts) (fb : Framebuffer) :
    AgreeOutside parts s { t with fb := fb } := { h with fb := absurd hfb }

theorem AgreeOutside.set_rng (h : AgreeOutside parts s t) (hrng : .rng ∈ parts) (g : Rng) :
    AgreeOutside parts s { t with rng := g } := { h with rng := absurd hrng }

theorem AgreeOutside.storeBytes (h : AgreeOutside parts s t) (hmem : .mem ∈ parts) (a : Nat) (bs : List Byte) :
    AgreeOutside parts s (t.storeBytes a bs) := { h with mem := absurd hmem }

theorem AgreeOutside.recordFault (h : AgreeOutside parts s t) (hcef : .cef ∈ parts) (e : CriticalError) :
    AgreeOutside parts s (t.recordFault e) := { h with cef := absurd hcef }

/-- `Push` writes a slot and the pointer, or on a full stack the error flag (R98). -/
theorem AgreeOutside.push (h : AgreeOutside parts s t) (hstack : .stack ∈ parts) (hsp : .sp ∈ parts) (hcef : .cef ∈ parts)
    (a : Word) : AgreeOutside parts s (t.push a) := by
  obtain ⟨hroom, hpush⟩ | ⟨_, hpush⟩ := push_cases t a <;> rw [hpush]
  · exact { h with stack := absurd hstack, sp := absurd hsp }
  · exact h.recordFault hcef _

/-- `Pop` writes the pointer, or on an empty stack the error flag; no slot (R99). -/
theorem AgreeOutside.pop (h : AgreeOutside parts s t) (hsp : .sp ∈ parts) (hcef : .cef ∈ parts) :
    AgreeOutside parts s t.pop.2 := by
  obtain ⟨_, hpop⟩ | ⟨_, hpop⟩ := pop_cases t <;> rw [hpop]
  · exact h.recordFault hcef _
  · exact { h with sp := absurd hsp }

end

/-! ### Agreement of the registers outside a list of destinations -/

/-- What `WritesOnlyRegs` says of the two states around a handler. -/
def RegFrame (dest : List RegIdx) (parts : List Part) (s t : State) : Prop :=
  AgreeOutside (.v :: parts) s t ∧ ∀ r, r ∉ dest → t.readV r = s.readV r

theorem writesOnlyRegs_iff {i : Instr} {dest : List RegIdx} {parts : List Part} :
    WritesOnlyRegs i dest parts ↔ ∀ s, ∃ t, exec i s = .next t ∧ RegFrame dest parts s t := .rfl

theorem RegFrame.refl (dest : List RegIdx) (parts : List Part) (s : State) : RegFrame dest parts s s :=
  ⟨.refl _ s, fun _ _ => rfl⟩

/-- A write of a destination register keeps the frame. -/
theorem RegFrame.writeV {dest : List RegIdx} {parts : List Part} {s t : State} (h : RegFrame dest parts s t) {x : RegIdx}
    (hx : x ∈ dest) (b : Byte) : RegFrame dest parts s (t.writeV x b) := by
  obtain ⟨hparts, hregs⟩ := h
  refine ⟨hparts.writeV List.mem_cons_self x b, fun r hr => ?_⟩
  have hne : r ≠ x := fun e => hr (e ▸ hx)
  rw [readV_writeV_of_ne t b hne, hregs r hr]

/-! ### Handlers of one shape -/

/-- The handlers whose one statement is a write of `V[x]`. -/
theorem writesOnlyRegs_of_writeV {i : Instr} {x : RegIdx} (h : ∀ s, ∃ b, exec i s = .next (s.writeV x b)) :
    WritesOnlyRegs i [x] [] := writesOnlyRegs_iff.mpr fun s => by
  obtain ⟨b, hb⟩ := h s
  exact ⟨_, hb, (RegFrame.refl _ _ s).writeV List.mem_cons_self b⟩

/-- The handlers that write VF and then `V[x]` (R22, R141). -/
theorem writesOnlyRegs_of_flag_writeV {i : Instr} {x : RegIdx}
    (h : ∀ s, ∃ f b, exec i s = .next ((s.writeV vf f).writeV x b)) : WritesOnlyRegs i [x, 15] [] :=
  writesOnlyRegs_iff.mpr fun s => by
  obtain ⟨f, b, hfb⟩ := h s
  have hflag : RegFrame [x, 15] [] s (s.writeV vf f) := (RegFrame.refl _ _ s).writeV (by simp [vf]) f
  exact ⟨_, hfb, hflag.writeV List.mem_cons_self b⟩

/-- The handlers whose one statement is a jump. -/
theorem writesOnly_pc_of_jumpTo {i : Instr} (h : ∀ s, ∃ w, exec i s = .next (s.jumpTo w)) : WritesOnly i [.pc] := fun s => by
  obtain ⟨w, hw⟩ := h s
  exact ⟨_, hw, (AgreeOutside.refl _ s).jumpTo List.mem_cons_self w⟩

/-- The handlers whose one statement is a skip on a condition (R97). -/
theorem writesOnly_pc_of_skipIf {i : Instr} (h : ∀ s, ∃ c, exec i s = .next (s.skipIf c)) : WritesOnly i [.pc] := fun s => by
  obtain ⟨c, hc⟩ := h s
  exact ⟨_, hc, (AgreeOutside.refl _ s).skipIf List.mem_cons_self c⟩

/-- The handlers that set `I` alone. -/
theorem writesOnly_i_of_set {i : Instr} (h : ∀ s : State, ∃ w, exec i s = .next { s with i := w }) :
    WritesOnly i [.i] := fun s => by
  obtain ⟨w, hw⟩ := h s
  exact ⟨_, hw, (AgreeOutside.refl _ s).set_i List.mem_cons_self w⟩

/-- A store of `n` bytes writes memory only, and of it only the bytes at the `n` addresses from `a` up (R51). -/
theorem storeBytes_frame {s : State} (hinv : s.Inv) (a : Nat) {bs : List Byte} {n : Nat} (hlen : bs.length = n) :
    AgreeOutside [.mem] s (s.storeBytes a bs) ∧
      ∀ j, (∀ k, k < n → portAddr j ≠ portAddr (a + k)) → (s.storeBytes a bs).readByte j = s.readByte j := by
  subst hlen
  exact ⟨(AgreeOutside.refl _ s).storeBytes List.mem_cons_self a bs, fun j hj => read_writeBytes_outside hinv a j bs hj⟩

/-! ### The two outcomes of the key wait (R187) -/

theorem exec_ldVxK_of_key {s : State} {k : KeyIdx} (x : RegIdx) (h : s.firstKeyDown = some k) :
    exec (.ldVxK x) s = .next (s.writeV x (BitVec.ofNat 8 k.val)) := by
  simp only [exec, execLdVxK, h]

theorem exec_ldVxK_of_no_key {s : State} (x : RegIdx) (h : s.firstKeyDown = none) :
    exec (.ldVxK x) s = .next s.rewind := by
  simp only [exec, execLdVxK, h]

/-- `Fx0A` writes `V[x]` when a key is down and `PC` when none is. -/
theorem ldVxK_frame (x : RegIdx) : WritesOnlyRegs (.ldVxK x) [x] [.pc] := writesOnlyRegs_iff.mpr fun s => by
  cases h : s.firstKeyDown with
  | some k => exact ⟨_, exec_ldVxK_of_key x h, (RegFrame.refl _ _ s).writeV List.mem_cons_self _⟩
  | none => exact ⟨_, exec_ldVxK_of_no_key x h, (AgreeOutside.refl _ s).rewind (by simp), fun _ _ => rfl⟩

/-- `Cxkk` draws a byte and then writes `V[x]` (R165). -/
theorem rnd_frame (x : RegIdx) (kk : Byte) : WritesOnlyRegs (.rnd x kk) [x] [.rng] := writesOnlyRegs_iff.mpr fun s => by
  have hdraw : RegFrame [x] [.rng] s { s with rng := s.rng.advance } :=
    ⟨(AgreeOutside.refl _ s).set_rng (by simp) _, fun _ _ => rfl⟩
  exact ⟨_, rfl, hdraw.writeV List.mem_cons_self _⟩

/-- `Dxyn` writes the framebuffer and then VF (R176). -/
theorem drw_frame (x y : RegIdx) (n : Nibble) : WritesOnlyRegs (.drw x y n) [15] [.fb] := writesOnlyRegs_iff.mpr fun s => by
  have hdraw (fb : Framebuffer) : RegFrame [vf] [.fb] s { s with fb := fb } :=
    ⟨(AgreeOutside.refl _ s).set_fb (by simp) fb, fun _ _ => rfl⟩
  exact ⟨_, rfl, (hdraw _).writeV List.mem_cons_self _⟩

/-! ### The frames of the instructions -/

/-- Settles O49: `Push` or `Pop`, then the jump. -/
theorem frameCallAndReturn : Obligations.FrameCallAndReturn := by
  refine ⟨fun nnn s => ⟨_, rfl, ?_⟩, fun s => ⟨_, rfl, ?_⟩⟩
  · exact ((AgreeOutside.refl _ s).push (by simp) (by simp) (by simp) s.pc).jumpTo (by simp) _
  · exact ((AgreeOutside.refl _ s).pop (by simp) (by simp)).jumpTo (by simp) _

/-- Settles O51: both handlers are one store, of three and of sixteen bytes. -/
theorem frameStores : Obligations.FrameStores := fun s x hinv =>
  ⟨⟨_, rfl, storeBytes_frame hinv _ (bcdDigits_length (s.readV x))⟩,
    ⟨_, rfl, storeBytes_frame hinv _ s.v.length_toList⟩⟩

/-- Settles O52, one lemma for each of the instructions that write more than one part. -/
theorem frameLoadRandomKeyDraw : Obligations.FrameLoadRandomKeyDraw := fun x y kk n =>
  ⟨fun s => ⟨_, rfl, (AgreeOutside.refl _ s).set_v List.mem_cons_self _⟩, rnd_frame x kk, ldVxK_frame x, drw_frame x y n⟩

/-- Settles O46: every one of the seven handlers is one write of `V[x]`. -/
theorem frameOneRegister : Obligations.FrameOneRegister := by
  intro x y kk
  and_intros <;> exact writesOnlyRegs_of_writeV fun _ => ⟨_, rfl⟩

/-- Settles O47: every one of the five handlers is a write of VF and then of `V[x]`. -/
theorem frameRegisterAndFlag : Obligations.FrameRegisterAndFlag := by
  intro x y
  and_intros <;> exact writesOnlyRegs_of_flag_writeV fun _ => ⟨_, _, rfl⟩

/-- Settles O48: two jumps, then six skips on a condition. -/
theorem frameProgramCounter : Obligations.FrameProgramCounter := by
  intro x y kk nnn
  refine ⟨writesOnly_pc_of_jumpTo fun _ => ⟨_, rfl⟩, writesOnly_pc_of_jumpTo fun _ => ⟨_, rfl⟩, ?_⟩
  and_intros <;> exact writesOnly_pc_of_skipIf fun _ => ⟨_, rfl⟩

/-- Settles O50: three writers of `I`, then one of each timer. -/
theorem frameIndexAndTimers : Obligations.FrameIndexAndTimers := by
  intro x nnn
  refine ⟨?ldI, ?addI, ?ldF, fun s => ⟨_, rfl, ?ldDtVx⟩, fun s => ⟨_, rfl, ?ldStVx⟩⟩
  case ldDtVx => exact (AgreeOutside.refl _ s).set_dt List.mem_cons_self _
  case ldStVx => exact (AgreeOutside.refl _ s).set_st List.mem_cons_self _
  all_goals exact writesOnly_i_of_set fun _ => ⟨_, rfl⟩

/-! ### The parameters of reset -/

/-- Settles O55: the default font is the background of memory (`loadFont_default`), and only memory and the random source of a reset
state take a parameter. -/
theorem resetTakesParameters : Obligations.ResetTakesParameters := by
  refine ⟨?_, fun font seed => ?_⟩
  · rw [State.resetWith, loadFont_default]
    rfl
  · exact { AgreeOutside.refl [.mem, .rng] State.reset with mem := absurd (by simp), rng := absurd (by simp) }

end Sys2Proof.Machine
end

section
/-! SUPPORT. What no program can see (10_state.md R25, R26, R29, R30): each operation on the state keeps `SameToProgram`, and each
value a handler reads is the same in both states. A handler keeps it by the rules of its operations, a cycle by those of its parts. -/

namespace Sys2Proof.Machine

section
variable {s t : State}

/-! ### Values that a program sees -/

theorem SameToProgram.readV (h : SameToProgram s t) (r : RegIdx) : s.readV r = t.readV r := by
  simp only [State.readV, h.v]

theorem SameToProgram.readByte (h : SameToProgram s t) (a : Nat) : s.readByte a = t.readByte a := by
  simp only [State.readByte, h.mem]

theorem SameToProgram.dataAddr (h : SameToProgram s t) (offset : Nat) : s.dataAddr offset = t.dataAddr offset := by
  simp only [State.dataAddr, h.i]

theorem SameToProgram.keyDown (h : SameToProgram s t) (b : Byte) : s.keyDown b = t.keyDown b := by
  simp only [State.keyDown, h.keys]

theorem SameToProgram.firstKeyDown (h : SameToProgram s t) : s.firstKeyDown = t.firstKeyDown := by
  simp only [State.firstKeyDown, h.keys]

theorem SameToProgram.fetchWord (h : SameToProgram s t) : s.fetchWord = t.fetchWord := by
  simp only [State.fetchWord, h.readByte, h.pc]

theorem SameToProgram.drawSprite (h : SameToProgram s t) (px py n : Nat) :
    drawSprite s px py n = drawSprite t px py n := by
  simp only [Machine.drawSprite, h.readByte, h.dataAddr, h.fb]

/-! ### Operations -/

theorem SameToProgram.writeV (h : SameToProgram s t) (r : RegIdx) {b c : Byte} (hb : b = c) :
    SameToProgram (s.writeV r b) (t.writeV r c) := { h with v := by simp only [writeV_v, h.v, hb] }

theorem SameToProgram.jumpTo (h : SameToProgram s t) {a b : Word} (ha : a = b) :
    SameToProgram (s.jumpTo a) (t.jumpTo b) := { h with pc := ha }

theorem SameToProgram.skipIf (h : SameToProgram s t) {c d : Bool} (hc : c = d) :
    SameToProgram (s.skipIf c) (t.skipIf d) := by
  rw [skipIf_eq, skipIf_eq]
  exact { h with pc := by simp only [h.pc, hc] }

theorem SameToProgram.rewind (h : SameToProgram s t) : SameToProgram s.rewind t.rewind :=
  { h with pc := by simp only [rewind_pc, h.pc] }

theorem SameToProgram.set_i (h : SameToProgram s t) {a b : Word} (ha : a = b) :
    SameToProgram { s with i := a } { t with i := b } := { h with i := ha }

theorem SameToProgram.set_v (h : SameToProgram s t) {v w : Vector Byte 16} (hv : v = w) :
    SameToProgram { s with v := v } { t with v := w } := { h with v := hv }

theorem SameToProgram.set_fb (h : SameToProgram s t) {f g : Framebuffer} (hf : f = g) :
    SameToProgram { s with fb := f } { t with fb := g } := { h with fb := hf }

theorem SameToProgram.set_rng (h : SameToProgram s t) {g g' : Rng} (hg : g = g') :
    SameToProgram { s with rng := g } { t with rng := g' } := { h with rng := hg }

theorem SameToProgram.set_dt (h : SameToProgram s t) {b c : Byte} (hb : b = c) :
    SameToProgram { s with dt := b } { t with dt := c } := { h with dt := hb }

/-- `ST` may be written with any two values: no program sees it. -/
theorem SameToProgram.set_st (h : SameToProgram s t) (b c : Byte) :
    SameToProgram { s with st := b } { t with st := c } := { h with }

theorem SameToProgram.storeBytes (h : SameToProgram s t) {a a' : Nat} {bs bs' : List Byte} (ha : a = a') (hbs : bs = bs') :
    SameToProgram (s.storeBytes a bs) (t.storeBytes a' bs') := { h with mem := by simp only [storeBytes_mem, h.mem, ha, hbs] }

/-- `CEF` may be written with any two values: no program sees it. -/
theorem SameToProgram.recordFault (h : SameToProgram s t) (e e' : CriticalError) :
    SameToProgram (s.recordFault e) (t.recordFault e') := { h with }

/-- A push writes the slot that becomes visible, with the same word in both states (R98). -/
theorem SameToProgram.push (h : SameToProgram s t) {a b : Word} (ha : a = b) : SameToProgram (s.push a) (t.push b) := by
  subst ha
  have hsp : s.sp.val = t.sp.val := congrArg Fin.val h.sp
  obtain ⟨hroom, hpush⟩ | ⟨hfull, hpush⟩ := push_cases s a <;> rw [hpush]
  · rw [push_of_room a (hsp ▸ hroom)]
    refine { h with sp := by simp only [hsp], slots := fun k hk => ?_ }
    simp only [Vector.getElem_set, hsp]
    split
    · rfl
    · exact h.slots k (by simp only at hk; omega)
  · rw [push_of_full a (hsp ▸ hfull)]
    exact h.recordFault _ _

/-- A pop reads the slot below `SP`, which is visible (R99), and makes no slot visible. -/
theorem SameToProgram.pop (h : SameToProgram s t) : s.pop.1 = t.pop.1 ∧ SameToProgram s.pop.2 t.pop.2 := by
  have hsp : s.sp.val = t.sp.val := congrArg Fin.val h.sp
  obtain ⟨hempty, hpop⟩ | ⟨hne, hpop⟩ := pop_cases s <;> rw [hpop]
  · rw [pop_of_empty (hsp ▸ hempty)]
    exact ⟨rfl, h.recordFault _ _⟩
  · rw [pop_of_nonempty (hsp ▸ hne)]
    have hslot := h.slots ⟨s.sp.val - 1, by omega⟩ (by simp only; omega)
    refine ⟨by simpa only [hsp] using congrArg some hslot, { h with sp := by simp only [hsp], slots := fun k hk => ?_ }⟩
    exact h.slots k (by simp only at hk; omega)

/-! ### The parts of a cycle -/

theorem SameToProgram.beginCycle (h : SameToProgram s t) : SameToProgram s.beginCycle t.beginCycle := by
  rw [beginCycle_eq, beginCycle_eq]
  exact { h with keys := by simp only [h.keyIn, h.keys], keyIn := by simp only [h.keyIn], pc := by simp only [h.pc] }

theorem SameToProgram.tick (h : SameToProgram s t) : SameToProgram s.tick t.tick :=
  { h with dt := by simp only [tick_dt, h.dt] }

/-- Every handler completes in both states and keeps them the same to a program. -/
theorem SameToProgram.exec (h : SameToProgram s t) (i : Instr) :
    ∃ s' t', exec i s = .next s' ∧ exec i t = .next t' ∧ SameToProgram s' t' := by
  cases i with
  | cls => exact ⟨_, _, rfl, rfl, h.set_fb rfl⟩
  | ret =>
    obtain ⟨hval, hpop⟩ := h.pop
    exact ⟨_, _, rfl, rfl, hpop.jumpTo (by rw [hval])⟩
  | jp nnn => exact ⟨_, _, rfl, rfl, h.jumpTo rfl⟩
  | call nnn => exact ⟨_, _, rfl, rfl, (h.push h.pc).jumpTo rfl⟩
  | jpV0 nnn => exact ⟨_, _, rfl, rfl, h.jumpTo (by rw [h.readV])⟩
  | seImm | sneImm | seReg | sneReg => exact ⟨_, _, rfl, rfl, h.skipIf (by simp only [h.readV])⟩
  | skp | sknp => exact ⟨_, _, rfl, rfl, h.skipIf (by simp only [h.readV, h.keyDown])⟩
  | ldImm x | addImm x | ldReg x | orReg x | andReg x | xorReg x =>
    exact ⟨_, _, rfl, rfl, h.writeV x (by simp only [h.readV])⟩
  | addReg x | sub x | shr x | subn x | shl x =>
    exact ⟨_, _, rfl, rfl, (h.writeV vf (by simp only [h.readV])).writeV x (by simp only [readV_writeV, h.readV])⟩
  | ldVxDt x => exact ⟨_, _, rfl, rfl, h.writeV x h.dt⟩
  | ldVxK x =>
    have hkey := h.firstKeyDown
    cases hk : t.firstKeyDown with
    | some k =>
      rw [hk] at hkey
      exact ⟨_, _, exec_ldVxK_of_key x hkey, exec_ldVxK_of_key x hk, h.writeV x rfl⟩
    | none =>
      rw [hk] at hkey
      exact ⟨_, _, exec_ldVxK_of_no_key x hkey, exec_ldVxK_of_no_key x hk, h.rewind⟩
  | rnd x kk => exact ⟨_, _, rfl, rfl, (h.set_rng (by rw [h.rng])).writeV x (by rw [h.rng])⟩
  | drw x y n =>
    have hdrawn := h.drawSprite (t.readV x).toNat (t.readV y).toNat n.toNat
    exact ⟨_, _, rfl, rfl, (h.set_fb (by simp only [h.readV, hdrawn])).writeV vf (by simp only [h.readV, hdrawn])⟩
  | ldI nnn => exact ⟨_, _, rfl, rfl, h.set_i rfl⟩
  | addI x => exact ⟨_, _, rfl, rfl, h.set_i (by rw [h.i, h.readV])⟩
  | ldF x => exact ⟨_, _, rfl, rfl, h.set_i (by rw [h.readV])⟩
  | ldDtVx x => exact ⟨_, _, rfl, rfl, h.set_dt (h.readV x)⟩
  | ldStVx x => exact ⟨_, _, rfl, rfl, h.set_st _ _⟩
  | ldB x => exact ⟨_, _, rfl, rfl, h.storeBytes (h.dataAddr 0) (by rw [h.readV])⟩
  | stRegs x => exact ⟨_, _, rfl, rfl, h.storeBytes (h.dataAddr 0) (by rw [h.v])⟩
  | ldRegs x => exact ⟨_, _, rfl, rfl, h.set_v (by simp only [h.readByte, h.dataAddr])⟩

end

/-! ### The whole cycle -/

/-- A cycle whose word decodes is the handler between the fetch and the tick (R90). -/
theorem step_of_decoded {s u : State} {i : Instr} (hi : decodeWord s.fetchWord = .ok i)
    (hu : exec i s.beginCycle = .next u) : step s = .next u.tick := by
  simp only [step, beginCycle_ir, hi, hu, endCycle]

/-- A cycle whose word is unassigned is the fetch and the tick (R80). -/
theorem step_of_unassigned {s : State} {e : DecodeReject} (he : decodeWord s.fetchWord = .error e) :
    step s = .next s.beginCycle.tick := by
  simp only [step, beginCycle_ir, he, State.noHandler, endCycle]

/-- Settles O20: both states fetch the same word, so they run the same handler or none. -/
theorem unobservableStateInfluencesNothing : Obligations.UnobservableStateInfluencesNothing := by
  intro s t h
  cases hw : decodeWord t.fetchWord with
  | ok i =>
    obtain ⟨s', t', hs, ht, hsame⟩ := h.beginCycle.exec i
    exact ⟨_, _, step_of_decoded (h.fetchWord ▸ hw) hs, step_of_decoded hw ht, hsame.tick⟩
  | error e => exact ⟨_, _, step_of_unassigned (h.fetchWord ▸ hw), step_of_unassigned hw, h.beginCycle.tick⟩

end Sys2Proof.Machine
end

section
/-! SUPPORT. Which parts of the state each instruction may write (00_scope.md R8, 10_state.md), said once for every handler. Who owns
a part of the state, what a cycle does to `PC` and `KEY`, and the invariant follow from it. -/

namespace Sys2Proof.Machine

/-! ### The frame of every handler -/

/-- The parts that an instruction's rule lists (R8, decision D20). -/
def writtenParts : Instr → List Part
  | .cls => [.fb]
  | .ret => [.pc, .sp, .cef]
  | .call _ => [.pc, .stack, .sp, .cef]
  | .jp _ | .jpV0 _ => [.pc]
  | .seImm _ _ | .sneImm _ _ | .seReg _ _ | .sneReg _ _ | .skp _ | .sknp _ => [.pc]
  | .ldImm _ _ | .addImm _ _ | .ldReg _ _ | .orReg _ _ | .andReg _ _ | .xorReg _ _ => [.v]
  | .addReg _ _ | .sub _ _ | .shr _ _ | .subn _ _ | .shl _ _ => [.v]
  | .ldVxDt _ | .ldRegs _ => [.v]
  | .ldVxK _ => [.v, .pc]
  | .rnd _ _ => [.v, .rng]
  | .drw _ _ _ => [.v, .fb]
  | .ldI _ | .addI _ | .ldF _ => [.i]
  | .ldDtVx _ => [.dt]
  | .ldStVx _ => [.st]
  | .ldB _ | .stRegs _ => [.mem]

theorem WritesOnlyRegs.writesOnly {i : Instr} {dest : List RegIdx} {parts : List Part} (h : WritesOnlyRegs i dest parts) :
    WritesOnly i (.v :: parts) := fun s =>
  let ⟨t, ht, hparts, _⟩ := h s
  ⟨t, ht, hparts⟩

/-- Every handler completes and writes only the parts that its rule lists. -/
theorem writesOnly_writtenParts (i : Instr) : WritesOnly i (writtenParts i) := by
  cases i with
  | cls => exact fun s => ⟨_, rfl, (AgreeOutside.refl _ s).set_fb List.mem_cons_self _⟩
  | ret =>
    obtain ⟨-, hret⟩ := frameCallAndReturn
    exact hret
  | call nnn =>
    obtain ⟨hcall, -⟩ := frameCallAndReturn
    exact hcall nnn
  | jp | jpV0 => exact writesOnly_pc_of_jumpTo fun _ => ⟨_, rfl⟩
  | seImm | sneImm | seReg | sneReg | skp | sknp => exact writesOnly_pc_of_skipIf fun _ => ⟨_, rfl⟩
  | ldImm | addImm | ldReg | orReg | andReg | xorReg | ldVxDt =>
    exact (writesOnlyRegs_of_writeV fun _ => ⟨_, rfl⟩).writesOnly
  | addReg | sub | shr | subn | shl => exact (writesOnlyRegs_of_flag_writeV fun _ => ⟨_, _, rfl⟩).writesOnly
  | ldVxK x => exact (ldVxK_frame x).writesOnly
  | rnd x kk => exact (rnd_frame x kk).writesOnly
  | drw x y n => exact (drw_frame x y n).writesOnly
  | ldI | addI | ldF => exact writesOnly_i_of_set fun _ => ⟨_, rfl⟩
  | ldDtVx => exact fun s => ⟨_, rfl, (AgreeOutside.refl _ s).set_dt List.mem_cons_self _⟩
  | ldStVx => exact fun s => ⟨_, rfl, (AgreeOutside.refl _ s).set_st List.mem_cons_self _⟩
  | ldB | stRegs => exact fun s => ⟨_, rfl, (AgreeOutside.refl _ s).storeBytes List.mem_cons_self _ _⟩
  | ldRegs => exact fun s => ⟨_, rfl, (AgreeOutside.refl _ s).set_v List.mem_cons_self _⟩

theorem exec_frame {i : Instr} {s t : State} (h : exec i s = .next t) : AgreeOutside (writtenParts i) s t := by
  obtain ⟨t', ht', hframe⟩ := writesOnly_writtenParts i s
  cases ht'.symm.trans h
  exact hframe

/-! ### The owners of a part -/

theorem owner_of_i (i : Instr) : .i ∈ writtenParts i → ∃ x nnn, i = .ldI nnn ∨ i = .addI x ∨ i = .ldF x := by
  cases i <;> simp [writtenParts]

theorem owner_of_stack (i : Instr) :
    .stack ∈ writtenParts i ∨ .sp ∈ writtenParts i ∨ .cef ∈ writtenParts i → i = .ret ∨ ∃ nnn, i = .call nnn := by
  cases i <;> simp [writtenParts]

theorem owner_of_fb (i : Instr) : .fb ∈ writtenParts i → i = .cls ∨ ∃ x y n, i = .drw x y n := by
  cases i <;> simp [writtenParts]

theorem owner_of_rng (i : Instr) : .rng ∈ writtenParts i → ∃ x kk, i = .rnd x kk := by
  cases i <;> simp [writtenParts]

/-- No instruction writes `KEY` or takes from the host's queue (R27). -/
theorem keys_notMem_writtenParts (i : Instr) : .keys ∉ writtenParts i ∧ .keyIn ∉ writtenParts i := by
  cases i <;> simp [writtenParts]

/-! ### Memory -/

@[simp] theorem skipIf_mem (s : State) (c : Bool) : (s.skipIf c).mem = s.mem := by
  rw [skipIf_eq]

@[simp] theorem push_mem (s : State) (a : Word) : (s.push a).mem = s.mem := by
  obtain ⟨_, hpush⟩ | ⟨_, hpush⟩ := push_cases s a
  · rw [hpush]
  · rw [hpush, recordFault_mem]

@[simp] theorem pop_mem (s : State) : s.pop.2.mem = s.mem := by
  obtain ⟨_, hpop⟩ | ⟨_, hpop⟩ := pop_cases s
  · rw [hpop, recordFault_mem]
  · rw [hpop]

/-- Only the two stores write memory, and any other handler leaves even its list of cells alone, which is more than the frame says of
the bytes. -/
theorem exec_mem {i : Instr} {s t : State} (h : exec i s = .next t) :
    t.mem = s.mem ∨ ∃ x, i = .ldB x ∨ i = .stRegs x := by
  cases i with
  | ldB x => exact .inr ⟨x, .inl rfl⟩
  | stRegs x => exact .inr ⟨x, .inr rfl⟩
  | ret => cases h; exact .inl (pop_mem s)
  | call nnn => cases h; exact .inl (push_mem s s.pc)
  | seImm | sneImm | seReg | sneReg | skp | sknp => cases h; exact .inl (skipIf_mem s _)
  | ldVxK x =>
    cases hk : s.firstKeyDown with
    | some k => cases (exec_ldVxK_of_key x hk).symm.trans h; exact .inl rfl
    | none => cases (exec_ldVxK_of_no_key x hk).symm.trans h; exact .inl rfl
  | _ => cases h; exact .inl rfl

/-- Settles O14: the frame of every handler, with `exec_mem` for memory. -/
theorem onlyOwnersWriteState : Obligations.OnlyOwnersWriteState := by
  intro i s t h
  have hframe := exec_frame h
  refine ⟨exec_mem h, ?i, ?stack, ?fb, ?rng⟩
  case i => exact (Classical.em _).symm.imp hframe.i (owner_of_i i)
  case stack =>
    refine (Classical.em _).symm.imp (fun hno => ?_) (owner_of_stack i)
    obtain ⟨hstack, hsp, hcef⟩ := (not_or.mp hno).imp_right not_or.mp
    exact ⟨hframe.stack hstack, hframe.sp hsp, hframe.cef hcef⟩
  case fb => exact (Classical.em _).symm.imp hframe.fb (owner_of_fb i)
  case rng => exact (Classical.em _).symm.imp hframe.rng (owner_of_rng i)

/-! ### The invariant -/

theorem exec_inv {i : Instr} {s t : State} (hinv : s.Inv) (h : exec i s = .next t) : t.Inv := by
  obtain hmem | ⟨x, rfl | rfl⟩ := exec_mem h
  · rwa [State.Inv, hmem]
  · cases h; exact storeBytes_wf _ _ hinv
  · cases h; exact storeBytes_wf _ _ hinv

theorem beginCycle_inv {s : State} (hinv : s.Inv) : s.beginCycle.Inv := by
  rw [beginCycle_eq]
  exact hinv

/-- Settles O18: of a cycle's parts only the handler can write memory, and it keeps the canonical form (`exec_inv`). -/
theorem stepKeepsInvariant : Obligations.StepKeepsInvariant := by
  intro s t hinv h
  obtain ⟨i, u, -, hu, rfl⟩ | ⟨e, -, rfl⟩ := step_cases h
  · have hhandler : u.Inv := exec_inv (beginCycle_inv hinv) hu
    exact hhandler
  · exact beginCycle_inv hinv

theorem boot_inv {font : FontTable} {seed : Nat} {image : List Byte} {s : State} (h : boot font seed image = .ok s) :
    s.Inv := by
  unfold boot romLoad at h
  split at h
  · cases h
  · split at h
    · cases h
    · cases h
      exact storeBytes_wf _ _ (resetWith_wf font seed)

theorem reachable_inv {s : State} (h : Reachable s) : s.Inv := by
  induction h with
  | boot hboot => exact boot_inv hboot
  | keys k _ ih => exact ih
  | random bs _ ih => exact ih
  | cycle _ hstep ih => exact stepKeepsInvariant _ _ ih hstep

theorem step_completes (s : State) : ∃ t, step s = .next t := by
  cases hw : decodeWord s.fetchWord with
  | ok i =>
    obtain ⟨u, hu, -⟩ := writesOnly_writtenParts i s.beginCycle
    exact ⟨_, step_of_decoded hw hu⟩
  | error e => exact ⟨_, step_of_unassigned hw⟩

/-- Settles O19: every move keeps the invariant, and a cycle completes from every state. -/
theorem reachableStatesAreSafe : Obligations.ReachableStatesAreSafe := fun s h => ⟨reachable_inv h, step_completes s⟩

/-! ### The keypad state and the program counter -/

/-- Settles O13: the key sampling is the only writer of `KEY`. -/
theorem keysComeFromTheHost : Obligations.KeysComeFromTheHost := by
  intro s t h
  have hkeys : t.keys = s.beginCycle.keys ∧ t.keyIn = s.beginCycle.keyIn := by
    obtain ⟨i, u, -, hu, rfl⟩ | ⟨e, -, rfl⟩ := step_cases h
    · obtain ⟨hkeys, hkeyIn⟩ := keys_notMem_writtenParts i
      exact ⟨(exec_frame hu).keys hkeys, (exec_frame hu).keyIn hkeyIn⟩
    · exact ⟨rfl, rfl⟩
  rw [beginCycle_eq] at hkeys
  obtain ⟨hkeys, hkeyIn⟩ := hkeys
  refine ⟨hkeyIn, fun hnone => ?_, fun k rest hsome => ?_⟩
  · simpa [hnone] using hkeys
  · simpa [hsome] using hkeys

theorem nextInstr_of_decoded {s : State} {i : Instr} (h : decodeWord s.fetchWord = .ok i) : s.nextInstr = some i := by
  simp only [State.nextInstr, h]

/-- What a handler may do to `PC` (R97, R110 to R113, R187). -/
theorem exec_pc {i : Instr} {s t : State} (h : exec i s = .next t) :
    t.pc = s.pc ∨
    (∃ nnn, i = .ret ∨ i = .jp nnn ∨ i = .call nnn ∨ i = .jpV0 nnn) ∨
    (t.pc = s.pc + 2 ∧ ∃ x y kk, i = .seImm x kk ∨ i = .sneImm x kk ∨ i = .seReg x y ∨ i = .sneReg x y ∨ i = .skp x ∨
      i = .sknp x) ∨
    (t.pc = s.pc - 2 ∧ ∃ x, i = .ldVxK x) := by
  cases i with
  | ret | jp | call | jpV0 => exact .inr (.inl (by simp))
  | seImm | sneImm | seReg | sneReg | skp | sknp =>
    cases h
    rw [skipIf_pc]
    split
    · exact .inr (.inr (.inl (by simp)))
    · exact .inl rfl
  | ldVxK x =>
    cases hk : s.firstKeyDown with
    | some k => cases (exec_ldVxK_of_key x hk).symm.trans h; exact .inl rfl
    | none => cases (exec_ldVxK_of_no_key x hk).symm.trans h; exact .inr (.inr (.inr ⟨rfl, x, rfl⟩))
  | _ => exact .inl ((exec_frame h).pc (by simp [writtenParts]))

/-- Settles O12: the handler runs with `PC` already advanced by 2 (R93), and the tick leaves `PC` alone. -/
theorem pcAdvancesByTwoExcept : Obligations.PcAdvancesByTwoExcept := by
  intro s t h
  have hadvanced : s.beginCycle.pc = s.pc + 2 := by rw [beginCycle_eq]
  obtain ⟨i, u, hi, hu, rfl⟩ | ⟨e, -, rfl⟩ := step_cases h
  · have hpc := exec_pc hu
    have hskipped : s.pc + 2 + 2 = s.pc + 4 := by rw [BitVec.add_assoc]; rfl
    have hrewound : s.pc + 2 - 2 = s.pc := BitVec.add_sub_cancel _ _
    rw [hadvanced, hskipped, hrewound] at hpc
    simpa only [nextInstr_of_decoded hi, tick_pc, Option.some.injEq] using hpc
  · exact .inl hadvanced

end Sys2Proof.Machine
end

section
/-! SUPPORT. What reset leaves (10_state.md R35, R36), for every font table and random seed. -/

namespace Sys2Proof.Machine

/-- Settles O17: the fixed reset state lists nothing, and the Font Loader keeps the canonical form. -/
theorem resetMeetsInvariant : Obligations.ResetMeetsInvariant := ⟨nil_wf, resetWith_wf⟩

/-- Settles O53: the Font Loader writes the font and leaves the zero background around it. -/
theorem resetValuesOfTheSource : Obligations.ResetValuesOfTheSource := by
  rintro font seed s rfl
  refine ⟨fun k r => ?glyph, fun a ha hout => ?zero, fun r => ?reg, rfl, rfl, fun k => ?key, rfl⟩
  case glyph =>
    rw [Nat.add_assoc]
    exact read_loadFont_inside nil_wf font k r
  case zero =>
    have hport : portAddr a = a := Nat.mod_eq_of_lt ha
    have hfont : ¬ (fontBase ≤ a ∧ a < fontBase + 80) := by unfold fontBase; omega
    calc (State.resetWith font seed).readByte a
      _ = Memory.read [] a := read_loadFont_outside nil_wf font (by rw [hport]; unfold fontBase; omega)
      _ = background a := by rw [Memory.read, hport, Memory.get]
      _ = 0 := if_neg hfont
  case reg => simp [State.readV]
  case key => simp

/-- Settles O54: every named part of a reset state is zero, each cell by `dark_cell`. -/
theorem resetValuesDecided : Obligations.ResetValuesDecided := by
  rintro font seed s rfl
  refine ⟨rfl, rfl, rfl, fun cx cy => ?_, fun k => ?_⟩
  · exact dark_cell cx cy
  · simp

end Sys2Proof.Machine
end

section
/-! SUPPORT. Decoding a canonical word (30_encoding.md R74 to R79). The top nibble leads to the family, and the fields that the format
laid out are read back. After it the value of a word in terms of its two bytes (20_memory.md R52). -/

namespace Sys2Proof

/-! ### The families that decode a second time -/

theorem decodeWord_of_family0 {w : Word} (h : opOf w = 0x0) : decodeWord w = decodeFamily0 w := by
  rw [decodeWord, h]
  rfl

theorem decodeWord_of_family8 {w : Word} (h : opOf w = 0x8) : decodeWord w = decodeFamily8 w := by
  rw [decodeWord, h]
  rfl

theorem decodeWord_of_familyE {w : Word} (h : opOf w = 0xE) : decodeWord w = decodeFamilyE w := by
  rw [decodeWord, h]
  rfl

theorem decodeWord_of_familyF {w : Word} (h : opOf w = 0xF) : decodeWord w = decodeFamilyF w := by
  rw [decodeWord, h]
  rfl

/-! ### The canonical word and its bytes -/

theorem decodeWord_encode (i : Instr) : decodeWord (encode i) = .ok i := by
  cases i with
  | cls | ret => rw [encode, decodeWord_of_family0 (opOf_wordNNN _ _), decodeFamily0, kkOf_wordNNN]; rfl
  | jp | call | ldI | jpV0 => rw [encode, decodeWord, opOf_wordNNN, nnnOf_wordNNN]; rfl
  | seImm | sneImm | ldImm | addImm | rnd => rw [encode, decodeWord, opOf_wordXKK, xOf_wordXKK, kkOf_wordXKK]; rfl
  | seReg | sneReg | drw => rw [encode, decodeWord, opOf_wordXYN, xOf_wordXYN, yOf_wordXYN, nOf_wordXYN]; rfl
  | ldReg | orReg | andReg | xorReg | addReg | sub | shr | subn | shl =>
    rw [encode, decodeWord_of_family8 (opOf_wordXYN _ _ _ _), decodeFamily8, nOf_wordXYN, xOf_wordXYN, yOf_wordXYN]; rfl
  | skp | sknp =>
    rw [encode, decodeWord_of_familyE (opOf_wordXKK _ _ _), decodeFamilyE, kkOf_wordXKK, xOf_wordXKK]; rfl
  | ldVxDt | ldVxK | ldDtVx | ldStVx | addI | ldF | ldB | stRegs | ldRegs =>
    rw [encode, decodeWord_of_familyF (opOf_wordXKK _ _ _), decodeFamilyF, kkOf_wordXKK, xOf_wordXKK]; rfl

/-- A word laid out high byte first (R52) decodes, at the head of any bytes, to what it decodes to as a word. -/
theorem decodeBytes_of_decoded {w : Word} {i : Instr} (h : decodeWord w = .ok i) (rest : List Byte) :
    decodeBytes (hiByte w :: loByte w :: rest) = .ok (i, rest) := by
  simp only [decodeBytes, wordOfBytes_bytes, h]

/-- Settles O1: `decodeWord_encode`, by format and family, and the same for the two bytes of the word. -/
theorem decodeOfEncode : Obligations.DecodeOfEncode := fun i =>
  ⟨decodeWord_encode i, decodeBytes_of_decoded (decodeWord_encode i)⟩

/-! ### The value of a word -/

theorem wordOfBytes_toNat (hi lo : Byte) : (wordOfBytes hi lo).toNat = hi.toNat * 256 + lo.toNat := by
  have hlo := lo.isLt
  rw [wordOfBytes, BitVec.toNat_cast, BitVec.toNat_append, ← Nat.shiftLeft_add_eq_or_of_lt hlo, Nat.shiftLeft_eq]

end Sys2Proof
end

section
/-! SUPPORT. What a fetch reads (20_memory.md R52, R53): the word that a cycle leaves in `IR`, and the bytes of a store. -/

namespace Sys2Proof.Machine

/-- No handler writes `IR` (R29). -/
theorem ir_notMem_writtenParts (i : Instr) : .ir ∉ writtenParts i := by
  cases i <;> simp [writtenParts]

/-- After a cycle `IR` still holds the word that the cycle fetched (R29, R92). -/
theorem step_ir {s t : State} (h : step s = .next t) : t.ir = s.fetchWord := by
  obtain ⟨i, u, -, hu, rfl⟩ | ⟨e, -, rfl⟩ := step_cases h
  · calc u.tick.ir
      _ = s.beginCycle.ir := (exec_frame hu).ir (ir_notMem_writtenParts i)
      _ = s.fetchWord := beginCycle_ir s
  · exact beginCycle_ir s

/-- Settles O6: `IR` holds the fetched word (`step_ir`), which is made of the two bytes, high byte first. -/
theorem fetchIsBigEndian : Obligations.FetchIsBigEndian := by
  intro s t h
  rw [step_ir h, State.fetchWord, wordOfBytes_toNat]

/-- The word that is fetched next after a jump (R52). -/
theorem fetchWord_jumpTo (s : State) (a : Word) :
    (s.jumpTo a).fetchWord = wordOfBytes (s.readByte a.toNat) (s.readByte (a.toNat + 1)) := rfl

/-- A byte of a store of at most 4096 bytes reads back at every address that the port reduces to its own (R51, R53). -/
theorem readByte_storeBytes_inside {s : State} (hinv : s.Inv) {a j k : Nat} {bs : List Byte}
    (hlen : bs.length ≤ Config.memSize) (hk : k < bs.length) (hj : portAddr j = portAddr (a + k)) :
    (s.storeBytes a bs).readByte j = bs[k] := by
  rw [readByte_congr _ hj]
  exact read_writeBytes_inside hinv a bs hlen k hk

/-- After `Fx55` the byte at `I + r` is `V[r]` (R154; logs 1 and 7). -/
theorem readByte_stRegs {s t : State} {x : RegIdx} (hinv : s.Inv) (h : exec (.stRegs x) s = .next t) (r : RegIdx) {a : Nat}
    (ha : portAddr a = portAddr (s.dataAddr r.val)) : t.readByte a = s.readV r := by
  cases h
  have hlen : s.v.toList.length = 16 := s.v.length_toList
  exact readByte_storeBytes_inside hinv (by rw [hlen]; decide) (by rw [hlen]; exact r.isLt) ha

/-- A 16-bit sum wraps at a multiple of the memory size, so the port does not see its wrap (logs 1 and 2). -/
theorem portAddr_toNat_add (w : Word) (k offset : Nat) :
    portAddr ((w + BitVec.ofNat 16 k).toNat + offset) = portAddr (w.toNat + (k + offset)) := by
  simp only [portAddr, Config.memSize, BitVec.toNat_add, BitVec.toNat_ofNat]
  omega

/-- Settles O24: the fetch reads at `I + k` and `I + k + 1`, where the store left `V[k]` and `V[k + 1]`. -/
theorem storedRegistersAreFetched : Obligations.StoredRegistersAreFetched := by
  intro s t x k hinv h
  have hhi : t.readByte (s.i + BitVec.ofNat 16 k.val).toNat = s.readV k.castSucc :=
    readByte_stRegs hinv h k.castSucc (portAddr_toNat_add s.i k.val 0)
  have hlo : t.readByte ((s.i + BitVec.ofNat 16 k.val).toNat + 1) = s.readV k.succ :=
    readByte_stRegs hinv h k.succ (portAddr_toNat_add s.i k.val 1)
  calc (t.jumpTo (s.i + BitVec.ofNat 16 k.val)).fetchWord
    _ = wordOfBytes _ _ := fetchWord_jumpTo t _
    _ = wordOfBytes (s.readV k.castSucc) (s.readV k.succ) := by rw [hhi, hlo]

end Sys2Proof.Machine
end

section
/-! SUPPORT. Encoding what a word decodes to, and the words that decode to nothing (30_encoding.md R74 to R81). A word is laid out
again from the fields that the decoder reads; only the ignored bits of families 0, 5 and 9 are lost. -/

namespace Sys2Proof

/-! ### A word laid out from its own fields (R71, R72) -/

theorem wordNNN_of_fields {w : Word} {op : Nibble} (hop : opOf w = op) : wordNNN op (nnnOf w) = w := by
  subst hop
  refine BitVec.eq_of_getLsbD_eq fun k hk => ?_
  simp only [getLsbD_wordNNN, opOf, nnnOf, BitVec.getLsbD_extractLsb']
  split
  · simp [*]
  · simp [show k - 12 < 4 by omega, show 12 + (k - 12) = k by omega]

theorem regField_xOf (w : Word) : regField (xOf w) = w.extractLsb' 8 4 := rfl

theorem regField_yOf (w : Word) : regField (yOf w) = w.extractLsb' 4 4 := rfl

theorem regField_append_kkOf (w : Word) : (regField (xOf w) ++ kkOf w).cast (by decide) = nnnOf w := by
  refine BitVec.eq_of_getLsbD_eq fun k hk => ?_
  simp only [BitVec.getLsbD_cast, BitVec.getLsbD_append, regField_xOf, kkOf, nnnOf, BitVec.getLsbD_extractLsb']
  split
  · simp [*]
  · simp [hk, show k - 8 < 4 by omega, show 8 + (k - 8) = k by omega]

theorem regField_append_nOf (w : Word) : (regField (yOf w) ++ nOf w).cast (by decide) = kkOf w := by
  refine BitVec.eq_of_getLsbD_eq fun k hk => ?_
  simp only [BitVec.getLsbD_cast, BitVec.getLsbD_append, regField_yOf, kkOf, nOf, BitVec.getLsbD_extractLsb']
  split
  · simp [*]
  · simp [hk, show k - 4 < 4 by omega, show 4 + (k - 4) = k by omega]

theorem wordXKK_of_fields {w : Word} {op : Nibble} {kk : Byte} (hop : opOf w = op) (hkk : kkOf w = kk) :
    wordXKK op (xOf w) kk = w := by
  rw [wordXKK, ← hkk, regField_append_kkOf, wordNNN_of_fields hop]

theorem wordXYN_of_fields {w : Word} {op n : Nibble} (hop : opOf w = op) (hn : nOf w = n) :
    wordXYN op (xOf w) (yOf w) n = w := by
  rw [wordXYN, ← hn, regField_append_nOf, wordXKK_of_fields hop rfl]

/-- A mask that clears the low nibble only. -/
theorem masked_low_wordXYN (op : Nibble) (x y : RegIdx) (n : Nibble) : wordXYN op x y n &&& 0xFFF0 = wordXYN op x y 0 := by
  refine BitVec.eq_of_getLsbD_eq fun k hk => ?_
  rw [BitVec.getLsbD_and, getLsbD_wordXYN, getLsbD_wordXYN]
  have hm : ∀ j : Fin 16, (0xFFF0#16).getLsbD j.val = decide (4 ≤ j.val) := by decide
  rw [show (0xFFF0 : Word).getLsbD k = _ from hm ⟨k, hk⟩]
  by_cases h4 : k < 4
  · simp [h4, show k < 12 by omega, show k < 8 by omega]
  · simp [h4, show 4 ≤ k by omega]

/-- The word of a family that ignores bits 3:0 (R79; log 4). -/
theorem wordXYN_zero_of_fields {w : Word} {op : Nibble} (hop : opOf w = op) :
    wordXYN op (xOf w) (yOf w) 0x0 = w &&& 0xFFF0 := by
  rw [← masked_low_wordXYN op _ _ (nOf w), wordXYN_of_fields hop rfl]

/-! ### The canonical word of what a word decodes to (R79) -/

/-- Family 0 ignores bits 11:8 (log 3). -/
theorem encode_of_decodeFamily0 {w : Word} {i : Instr} (hop : opOf w = 0x0) (h : decodeFamily0 w = .ok i) :
    encode i = w &&& 0xF0FF := by
  have hclear : wordXKK 0x0 0 (kkOf w) = w &&& 0xF0FF := by
    rw [← masked_wordXKK 0x0 (xOf w), wordXKK_of_fields hop rfl]
  unfold decodeFamily0 at h
  split at h
  case h_1 hkk => cases h; rw [← hclear, BitVec.eq_of_toNat_eq (y := 0xE0) hkk]; rfl
  case h_2 hkk => cases h; rw [← hclear, BitVec.eq_of_toNat_eq (y := 0xEE) hkk]; rfl
  case h_3 => cases h

theorem encode_of_decodeFamily8 {w : Word} {i : Instr} (hop : opOf w = 0x8) (h : decodeFamily8 w = .ok i) :
    encode i = w := by
  unfold decodeFamily8 at h
  split at h <;> cases h
  all_goals exact wordXYN_of_fields hop (BitVec.eq_of_toNat_eq ‹_›)

theorem encode_of_decodeFamilyE {w : Word} {i : Instr} (hop : opOf w = 0xE) (h : decodeFamilyE w = .ok i) :
    encode i = w := by
  unfold decodeFamilyE at h
  split at h <;> cases h
  all_goals exact wordXKK_of_fields hop (BitVec.eq_of_toNat_eq ‹_›)

theorem encode_of_decodeFamilyF {w : Word} {i : Instr} (hop : opOf w = 0xF) (h : decodeFamilyF w = .ok i) :
    encode i = w := by
  unfold decodeFamilyF at h
  split at h <;> cases h
  all_goals exact wordXKK_of_fields hop (BitVec.eq_of_toNat_eq ‹_›)

/-- The first-level decode (R74): a family that decodes a second time, or one in which every word is assigned. -/
theorem decodeWord_cases (w : Word) :
    opOf w = 0x0 ∨ opOf w = 0x8 ∨ opOf w = 0xE ∨ opOf w = 0xF ∨
    ∃ i, decodeWord w = .ok i ∧ opOf w ≠ 0x0 ∧ encode i = if opOf w = 0x5 ∨ opOf w = 0x9 then w &&& 0xFFF0 else w := by
  have hnibble : ∀ op : Nibble, op = 0x0 ∨ op = 0x8 ∨ op = 0xE ∨ op = 0xF ∨ (op = 0x1 ∨ op = 0x2 ∨ op = 0xA ∨ op = 0xB) ∨
      (op = 0x3 ∨ op = 0x4 ∨ op = 0x6 ∨ op = 0x7 ∨ op = 0xC) ∨ op = 0xD ∨ op = 0x5 ∨ op = 0x9 := by decide
  refine (hnibble (opOf w)).imp_right (Or.imp_right (Or.imp_right (Or.imp_right ?_)))
  rintro (hNNN | hXKK | hD | h5 | h9)
  · obtain hop | hop | hop | hop := hNNN
    all_goals
      rw [decodeWord, hop]
      exact ⟨_, rfl, by decide, wordNNN_of_fields hop⟩
  · obtain hop | hop | hop | hop | hop := hXKK
    all_goals
      rw [decodeWord, hop]
      exact ⟨_, rfl, by decide, wordXKK_of_fields hop rfl⟩
  · rw [decodeWord, hD]
    exact ⟨_, rfl, by decide, wordXYN_of_fields hD rfl⟩
  · rw [decodeWord, h5]
    exact ⟨_, rfl, by decide, wordXYN_zero_of_fields h5⟩
  · rw [decodeWord, h9]
    exact ⟨_, rfl, by decide, wordXYN_zero_of_fields h9⟩

/-- Settles O2: the encoder lays out the fields that the decoder read, family by family. -/
theorem encodeOfDecodeIsCanonical : Obligations.EncodeOfDecodeIsCanonical := by
  intro w i h
  change encode i = if opOf w = 0x0 then w &&& 0xF0FF else if opOf w = 0x5 ∨ opOf w = 0x9 then w &&& 0xFFF0 else w
  obtain h0 | h8 | hE | hF | ⟨i', hi, hne, henc⟩ := decodeWord_cases w
  · rw [decodeWord_of_family0 h0] at h
    rw [if_pos h0, encode_of_decodeFamily0 h0 h]
  · rw [decodeWord_of_family8 h8] at h
    rw [h8, encode_of_decodeFamily8 h8 h]; rfl
  · rw [decodeWord_of_familyE hE] at h
    rw [hE, encode_of_decodeFamilyE hE h]; rfl
  · rw [decodeWord_of_familyF hF] at h
    rw [hF, encode_of_decodeFamilyF hF h]; rfl
  · cases hi.symm.trans h
    rw [if_neg hne, henc]

/-! ### The unassigned words (R81) -/

theorem decodeFamily0_rejects_iff {w : Word} : (∃ e, decodeFamily0 w = .error e) ↔ kkOf w ∉ [0xE0, 0xEE] := by
  unfold decodeFamily0
  split <;> simp_all [BitVec.toNat_eq]

theorem decodeFamily8_rejects_iff {w : Word} :
    (∃ e, decodeFamily8 w = .error e) ↔ nOf w ∈ [0x8, 0x9, 0xA, 0xB, 0xC, 0xD, 0xF] := by
  unfold decodeFamily8
  split
  case h_10 =>
    have hlt := (nOf w).isLt
    simp only [BitVec.toNat_eq, List.mem_cons]
    grind
  all_goals simp [BitVec.toNat_eq, *]

theorem decodeFamilyE_rejects_iff {w : Word} : (∃ e, decodeFamilyE w = .error e) ↔ kkOf w ∉ [0x9E, 0xA1] := by
  unfold decodeFamilyE
  split <;> simp_all [BitVec.toNat_eq]

theorem decodeFamilyF_rejects_iff {w : Word} :
    (∃ e, decodeFamilyF w = .error e) ↔ kkOf w ∉ [0x07, 0x0A, 0x15, 0x18, 0x1E, 0x29, 0x33, 0x55, 0x65] := by
  unfold decodeFamilyF
  split <;> simp_all [BitVec.toNat_eq]

/-- Only a family that decodes a second time rejects a word. -/
theorem decodeWord_rejects_iff {w : Word} :
    (∃ e, decodeWord w = .error e) ↔
      (opOf w = 0x0 ∧ ∃ e, decodeFamily0 w = .error e) ∨ (opOf w = 0x8 ∧ ∃ e, decodeFamily8 w = .error e) ∨
      (opOf w = 0xE ∧ ∃ e, decodeFamilyE w = .error e) ∨ (opOf w = 0xF ∧ ∃ e, decodeFamilyF w = .error e) := by
  constructor
  · intro h
    obtain h0 | h8 | hE | hF | ⟨i, hi, -, -⟩ := decodeWord_cases w
    · exact .inl ⟨h0, decodeWord_of_family0 h0 ▸ h⟩
    · exact .inr (.inl ⟨h8, decodeWord_of_family8 h8 ▸ h⟩)
    · exact .inr (.inr (.inl ⟨hE, decodeWord_of_familyE hE ▸ h⟩))
    · exact .inr (.inr (.inr ⟨hF, decodeWord_of_familyF hF ▸ h⟩))
    · obtain ⟨e, he⟩ := h
      cases hi.symm.trans he
  · rintro (⟨hop, h⟩ | ⟨hop, h⟩ | ⟨hop, h⟩ | ⟨hop, h⟩)
    · rwa [decodeWord_of_family0 hop]
    · rwa [decodeWord_of_family8 hop]
    · rwa [decodeWord_of_familyE hop]
    · rwa [decodeWord_of_familyF hop]

/-- Settles O4: each of the four families rejects the second-level keys it does not list. -/
theorem unassignedWordsAreThese : Obligations.UnassignedWordsAreThese := fun w => by
  rw [decodeWord_rejects_iff, decodeFamily0_rejects_iff, decodeFamily8_rejects_iff, decodeFamilyE_rejects_iff,
    decodeFamilyF_rejects_iff]
  rfl

/-- Whether a word is rejected depends on its decode keys only: the top nibble, and the second-level key of its family. -/
theorem rejected_of_same_keys {w w' : Word} (hop : opOf w = opOf w') (hkk : opOf w ∈ [0x0, 0xE, 0xF] → kkOf w = kkOf w')
    (hn : opOf w = 0x8 → nOf w = nOf w') (h : ∃ e, decodeWord w = .error e) : ∃ e, decodeWord w' = .error e := by
  simp only [decodeWord_rejects_iff, decodeFamily0_rejects_iff, decodeFamily8_rejects_iff, decodeFamilyE_rejects_iff,
    decodeFamilyF_rejects_iff] at h ⊢
  rw [← hop]
  obtain ⟨h0, hkey⟩ | ⟨h8, hkey⟩ | ⟨hE, hkey⟩ | ⟨hF, hkey⟩ := h
  · exact .inl ⟨h0, hkk (by simp [h0]) ▸ hkey⟩
  · exact .inr (.inl ⟨h8, hn h8 ▸ hkey⟩)
  · exact .inr (.inr (.inl ⟨hE, hkk (by simp [hE]) ▸ hkey⟩))
  · exact .inr (.inr (.inr ⟨hF, hkk (by simp [hF]) ▸ hkey⟩))

/-- Settles O5: the decoder evaluated on each word. -/
theorem sampleWordsDecode : Obligations.SampleWordsDecode := by
  unfold Obligations.SampleWordsDecode
  and_intros <;> rfl

end Sys2Proof
end

section
/-! SUPPORT. The decoder against the opcode map (30_encoding.md R85). What is particular to the 34 rows is said by four closed facts
about the table; the rest holds of every word. -/

namespace Sys2Proof

/-! ### Facts about the rows -/

/-- Every row fixes the top nibble, and the second-level key where its family has one. -/
theorem row_mask_covers_keys : ∀ row ∈ opcodeMap,
    opOf row.mask = BitVec.allOnes 4 ∧ (opOf row.matchBits ∈ [0x0, 0xE, 0xF] → kkOf row.mask = BitVec.allOnes 8) ∧
      (opOf row.matchBits = 0x8 → nOf row.mask = BitVec.allOnes 4) := by decide

/-- No row fixes a bit that its family ignores (R79). -/
theorem row_mask_skips_ignored : ∀ row ∈ opcodeMap,
    (opOf row.matchBits = 0x0 → 0xF0FF &&& row.mask = row.mask) ∧
    (opOf row.matchBits = 0x5 ∨ opOf row.matchBits = 0x9 → 0xFFF0 &&& row.mask = row.mask) := by decide

theorem row_match_canonical : ∀ row ∈ opcodeMap, isCanonicalWord row.matchBits = true := by decide

/-- Two different rows differ in a bit that both fix. -/
theorem rows_disjoint : ∀ row ∈ opcodeMap, ∀ row' ∈ opcodeMap,
    row.matchBits &&& row'.mask = row'.matchBits &&& row.mask → row = row' := by decide

/-! ### A decoded word selects a row with its label -/

open Laws.CanonicalRow in
theorem canonicalRow (i : Instr) : Laws.CanonicalRow.Statement i := by
  cases i with
  | cls => exact cls
  | ret => exact ret
  | jp nnn => exact jp nnn
  | call nnn => exact call nnn
  | seImm x kk => exact seImm x kk
  | sneImm x kk => exact sneImm x kk
  | seReg x y => exact seReg x y
  | ldImm x kk => exact ldImm x kk
  | addImm x kk => exact addImm x kk
  | ldReg x y => exact ldReg x y
  | orReg x y => exact orReg x y
  | andReg x y => exact andReg x y
  | xorReg x y => exact xorReg x y
  | addReg x y => exact addReg x y
  | sub x y => exact sub x y
  | shr x y => exact shr x y
  | subn x y => exact subn x y
  | shl x y => exact shl x y
  | sneReg x y => exact sneReg x y
  | ldI nnn => exact ldI nnn
  | jpV0 nnn => exact jpV0 nnn
  | rnd x kk => exact rnd x kk
  | drw x y n => exact drw x y n
  | skp x => exact skp x
  | sknp x => exact sknp x
  | ldVxDt x => exact ldVxDt x
  | ldVxK x => exact ldVxK x
  | ldDtVx x => exact ldDtVx x
  | ldStVx x => exact ldStVx x
  | addI x => exact addI x
  | ldF x => exact ldF x
  | ldB x => exact ldB x
  | stRegs x => exact stRegs x
  | ldRegs x => exact ldRegs x

/-- A word whose cleared form selects a row is of the row's family, where the clearing keeps the top nibble. -/
theorem opOf_eq_of_cleared_selected {w keep : Word} (hkeep : opOf keep = BitVec.allOnes 4) {row : OpcodeRow}
    (hrow : row ∈ opcodeMap) (hsel : (w &&& keep) &&& row.mask = row.matchBits) : opOf w = opOf row.matchBits := by
  obtain ⟨hop, -, -⟩ := row_mask_covers_keys row hrow
  have hcover : opOf (keep &&& row.mask) = BitVec.allOnes 4 :=
    calc opOf (keep &&& row.mask)
      _ = opOf keep &&& opOf row.mask := BitVec.extractLsb'_and
      _ = BitVec.allOnes 4 := by rw [hkeep, hop, BitVec.and_self]
  rw [BitVec.and_assoc] at hsel
  exact field_of_selected hsel 12 4 hcover

/-- The bits that encoding clears are in no row's mask, so a word selects the row that its canonical form selects. -/
theorem selected_of_encode_selected {w : Word} {i : Instr} (h : decodeWord w = .ok i) {row : OpcodeRow} (hrow : row ∈ opcodeMap)
    (hsel : encode i &&& row.mask = row.matchBits) : w &&& row.mask = row.matchBits := by
  obtain ⟨hskip0, hskip59⟩ := row_mask_skips_ignored row hrow
  rw [encodeOfDecodeIsCanonical w i h] at hsel
  split at hsel
  case isTrue h0 =>
    have hop := opOf_eq_of_cleared_selected (by decide) hrow hsel
    rwa [BitVec.and_assoc, hskip0 (hop ▸ h0)] at hsel
  split at hsel
  case isTrue h59 =>
    have hop := opOf_eq_of_cleared_selected (by decide) hrow hsel
    rwa [BitVec.and_assoc, hskip59 (hop ▸ h59)] at hsel
  case isFalse => exact hsel

theorem selects_row_of_decoded {w : Word} {i : Instr} (h : decodeWord w = .ok i) :
    ∃ row ∈ opcodeMap, row.mnemonic = i.mnemonic ∧ w &&& row.mask = row.matchBits := by
  obtain ⟨row, hrow, hlabel, hsel⟩ := canonicalRow i
  exact ⟨row, hrow, hlabel, selected_of_encode_selected h hrow hsel⟩

/-! ### A word that selects a row is not rejected -/

/-- It has the decode keys of the row's match, which decodes. -/
theorem not_rejected_of_selected {w : Word} {row : OpcodeRow} (hrow : row ∈ opcodeMap)
    (hsel : w &&& row.mask = row.matchBits) : ¬ ∃ e, decodeWord w = .error e := by
  obtain ⟨hmop, hmkk, hmn⟩ := row_mask_covers_keys row hrow
  have hop : opOf w = opOf row.matchBits := field_of_selected hsel 12 4 hmop
  have hkk : opOf w ∈ [0x0, 0xE, 0xF] → kkOf w = kkOf row.matchBits := fun h => field_of_selected hsel 0 8 (hmkk (hop ▸ h))
  have hn : opOf w = 0x8 → nOf w = nOf row.matchBits := fun h => field_of_selected hsel 0 4 (hmn (hop ▸ h))
  intro hrej
  obtain ⟨e, he⟩ := rejected_of_same_keys hop hkk hn hrej
  have hcanonical := row_match_canonical row hrow
  rw [isCanonicalWord, he] at hcanonical
  cases hcanonical

/-- Settles O3: a decoded word selects its instruction's row, a word that selects a row is not rejected, and two rows that one word
selects agree on the bits that both fix. -/
theorem decoderFollowsOpcodeMap : Obligations.DecoderFollowsOpcodeMap := by
  intro w
  refine ⟨fun i => selects_row_of_decoded, ⟨?rejected, ?unselected⟩, ?disjoint⟩
  case rejected => exact fun hrej row hrow hsel => not_rejected_of_selected hrow hsel hrej
  case unselected =>
    intro hnone
    cases hw : decodeWord w with
    | error e => exact ⟨e, rfl⟩
    | ok i =>
      obtain ⟨row, hrow, -, hsel⟩ := selects_row_of_decoded hw
      exact absurd hsel (hnone row hrow)
  case disjoint =>
    intro row hrow row' hrow' hsel hsel'
    refine rows_disjoint row hrow row' hrow' ?_
    rw [← hsel, ← hsel', BitVec.and_assoc, BitVec.and_assoc, BitVec.and_comm row.mask]

end Sys2Proof
end

section
/-! SUPPORT. The cycle of an unassigned word (30_encoding.md R80, 40_cycle_dispatch.md R93, R96). -/

namespace Sys2Proof.Machine

/-- Settles O8: such a cycle is the fetch and the tick (`step_of_unassigned`). -/
theorem unassignedWordOnlyAdvances : Obligations.UnassignedWordOnlyAdvances := by
  rintro s w e rfl he
  calc step s
    _ = .next s.beginCycle.tick := step_of_unassigned he
    _ = _ := by rw [beginCycle_eq]; rfl

end Sys2Proof.Machine
end

section
/-! SUPPORT. The cycle and its dispatch (40_cycle_dispatch.md R90 to R96, R101): every handler and every cycle completes, a cycle is
the handler of the decoded instruction between the fetch and the tick, and the tick takes one from each timer. -/

namespace Sys2Proof.Machine

/-! ### Completion (R95, R101) -/

/-- Settles O9: the frame of every handler (`writesOnly_writtenParts`) says that it completes. -/
theorem everyHandlerCompletes : Obligations.EveryHandlerCompletes := fun i s =>
  let ⟨t, ht, _⟩ := writesOnly_writtenParts i s
  ⟨t, ht⟩

/-- Settles O10: `step_completes`, with a handler or without one. -/
theorem everyCycleCompletes : Obligations.EveryCycleCompletes := step_completes

/-! ### The decoded instruction (R94) -/

theorem nextInstr_eq_some_iff {s : State} {i : Instr} : s.nextInstr = some i ↔ decodeWord s.fetchWord = .ok i := by
  cases hw : decodeWord s.fetchWord <;> simp [State.nextInstr, hw]

/-- Settles O7: `step_of_decoded`, with the state before the handler written out (`beginCycle_eq`). -/
theorem stepRunsDecodedInstruction : Obligations.StepRunsDecodedInstruction := by
  rintro s t i w rfl hi ht
  have hhandler : exec i s.beginCycle = .next t := by rw [beginCycle_eq]; exact ht
  exact step_of_decoded hi hhandler

/-- Settles O22: the jump overwrites the advanced `PC` with the old one, so only the fetch, the key sampling and the tick show. -/
theorem selfJumpOnlyTicks : Obligations.SelfJumpOnlyTicks := by
  intro s nnn hi hpc
  calc step s
    _ = .next (s.beginCycle.jumpTo (nnnAddr nnn)).tick := step_of_decoded (nextInstr_eq_some_iff.mp hi) rfl
    _ = .next (s.beginCycle.jumpTo s.pc).tick := by rw [hpc]; rfl
    _ = _ := by rw [beginCycle_eq]; rfl

/-! ### The timers (R96) -/

/-- What a cycle leaves is the tick of what its instruction's handler left. -/
theorem eq_tick_of_nextInstr {s t u : State} {i : Instr} (h : step s = .next t) (hi : s.nextInstr = some i)
    (hu : exec i s.beginCycle = .next u) : t = u.tick := by
  cases (step_of_decoded (nextInstr_eq_some_iff.mp hi) hu).symm.trans h
  rfl

/-- Between the fetch and the tick a cycle writes only what the rule of its instruction lists, and nothing for an unassigned word. -/
theorem step_frame {s t : State} (h : step s = .next t) :
    ∃ u, t = u.tick ∧ AgreeOutside (s.nextInstr.elim [] writtenParts) s.beginCycle u := by
  obtain ⟨i, u, hi, hu, rfl⟩ | ⟨e, -, rfl⟩ := step_cases h
  · exact ⟨u, rfl, nextInstr_of_decoded hi ▸ exec_frame hu⟩
  · exact ⟨s.beginCycle, rfl, .refl _ _⟩

theorem owner_of_dt (i : Instr) : .dt ∈ writtenParts i → ∃ x, i = .ldDtVx x := by
  cases i <;> simp [writtenParts]

theorem owner_of_st (i : Instr) : .st ∈ writtenParts i → ∃ x, i = .ldStVx x := by
  cases i <;> simp [writtenParts]

/-- A part with one owner is not written in a cycle that does not execute the owner. -/
theorem notMem_written_of_owner {p : Part} {owner : RegIdx → Instr} (howner : ∀ i, p ∈ writtenParts i → ∃ x, i = owner x)
    {next : Option Instr} (hnext : ∀ x, next ≠ some (owner x)) : p ∉ next.elim [] writtenParts := by
  cases next with
  | none => exact List.not_mem_nil
  | some i =>
    intro hp
    obtain ⟨x, rfl⟩ := howner i hp
    exact hnext x rfl

/-- Settles O11: a timer's own writer leaves `V[x]` in it, any other cycle leaves it as the handler found it, and the tick takes one
from either (`tickTimer_toNat`). -/
theorem timersTickOncePerCycle : Obligations.TimersTickOncePerCycle := by
  intro s t h
  obtain ⟨u, hu, hframe⟩ := step_frame h
  have hdt : s.beginCycle.dt = s.dt := by rw [beginCycle_eq]
  have hst : s.beginCycle.st = s.st := by rw [beginCycle_eq]
  refine ⟨fun x hi => ?dtSet, fun hno => ?dtKept, fun x hi => ?stSet, fun hno => ?stKept, fun x hi => ?dtRead⟩
  case dtSet => rw [eq_tick_of_nextInstr h hi rfl, tick_dt, tickTimer_toNat, readV_beginCycle]
  case dtKept => rw [hu, tick_dt, tickTimer_toNat, hframe.dt (notMem_written_of_owner owner_of_dt hno), hdt]
  case stSet => rw [eq_tick_of_nextInstr h hi rfl, tick_st, tickTimer_toNat, readV_beginCycle]
  case stKept => rw [hu, tick_st, tickTimer_toNat, hframe.st (notMem_written_of_owner owner_of_st hno), hst]
  case dtRead => rw [eq_tick_of_nextInstr h hi rfl, readV_tick, readV_writeV_self, hdt]

end Sys2Proof.Machine
end

section
/-! SUPPORT. Call and return (41_control_flow.md R110, R112 with the stack manager of 40_cycle_dispatch.md R98 to R100): each handler
on a stack with room, a full one, an empty one and a non-empty one, and a return that comes back behind its call. -/

namespace Sys2Proof.Machine

/-! ### The four outcomes -/

theorem exec_call_of_room {s : State} (nnn : BitVec 12) (h : s.sp.val < 16) :
    exec (.call nnn) s =
      .next (State.jumpTo { s with stack := s.stack.set s.sp.val s.pc h, sp := ⟨s.sp.val + 1, by omega⟩ } (nnnAddr nnn)) := by
  simp only [exec, execCall, push_of_room s.pc h]

theorem exec_call_of_full {s : State} (nnn : BitVec 12) (h : s.sp.val = 16) :
    exec (.call nnn) s = .next ((s.recordFault .stackOverflow).jumpTo (nnnAddr nnn)) := by
  simp only [exec, execCall, push_of_full s.pc h]

theorem exec_ret_of_empty {s : State} (h : s.sp.val = 0) :
    exec .ret s = .next ((s.recordFault .stackUnderflow).jumpTo 0) := by
  simp only [exec, execRet, pop_of_empty h, Option.getD_none]

theorem exec_ret_of_nonempty {s : State} {k : Fin 16} (h : k.val + 1 = s.sp.val) :
    exec .ret s = .next (State.jumpTo { s with sp := k.castSucc } s.stack[k]) := by
  have hk : s.sp.val - 1 = k.val := by omega
  simp only [exec, execRet, pop_of_nonempty (show s.sp.val ≠ 0 by omega), Option.getD_some, hk]
  rfl

/-- A word that a row with the top nibble alone in its mask selects has the row's top nibble (R85). -/
theorem opOf_of_selected {w bits : Word} (h : w &&& 0xF000 = bits) : opOf w = opOf bits := field_of_selected h 12 4 (by decide)

/-- Settles O30: the push with room, then the push on a full stack; both jump. -/
theorem callPushesReturnAddress : Obligations.CallPushesReturnAddress := by
  refine ⟨fun w hw => ?decodes, fun s nnn => ?calls⟩
  case decodes =>
    rw [decodeWord, opOf_of_selected hw]
    rfl
  case calls =>
    by_cases hroom : s.sp.val < 16
    · refine ⟨_, exec_call_of_room nnn hroom, rfl, rfl, fun k hk => ⟨?_, rfl, rfl, fun j hj => ?_⟩, fun hfull => ?_⟩
      · calc (s.stack.set s.sp.val s.pc hroom)[k.val]
          _ = if s.sp.val = k.val then s.pc else s.stack[k.val] := Vector.getElem_set hroom k.isLt
          _ = s.pc := if_pos hk.symm
      · exact Vector.getElem_set_ne hroom j.isLt (by omega)
      · exact absurd (hfull ▸ hroom : (16 : Fin 17).val < 16) (Nat.lt_irrefl 16)
    · refine ⟨_, exec_call_of_full nnn (by omega), rfl, rfl, fun k hk => ?_, fun _ => ⟨rfl, rfl, rfl⟩⟩
      exact absurd (hk ▸ k.isLt) hroom

/-- Settles O31: the pop of an empty stack, then of one with a slot below the pointer. -/
theorem returnPopsAddress : Obligations.ReturnPopsAddress := by
  intro s
  by_cases hempty : s.sp.val = 0
  · refine ⟨_, exec_ret_of_empty hempty, rfl, fun h => ⟨h, rfl, rfl⟩, fun k hk => ?_⟩
    omega
  · obtain ⟨top, htop⟩ : ∃ top : Fin 16, top.val + 1 = s.sp.val := ⟨⟨s.sp.val - 1, by omega⟩, Nat.sub_add_cancel (by omega)⟩
    refine ⟨_, exec_ret_of_nonempty htop, rfl, fun h => ?_, fun k hk => ?_⟩
    · exact absurd (congrArg Fin.val h) hempty
    · obtain rfl : k = top := Fin.ext (by omega)
      exact ⟨rfl, rfl, rfl⟩

/-! ### Last in, first out (R100) -/

/-- `t` has the live part of the call stack of `s`: the pointer, the slots below it, and no further fault. -/
structure SameStack (s t : State) : Prop where
  sp : t.sp = s.sp
  cef : t.cef = s.cef
  slots : ∀ k : Fin 16, k.val < s.sp.val → t.stack[k] = s.stack[k]

/-- A call with room and a later return, with anything between them that keeps the stack, come back behind the call and together keep
the stack. So such a pair may itself stand between another call and its return. -/
theorem ret_after_call {s a b c : State} {nnn : BitVec 12} (hroom : s.sp.val < 16) (hcall : exec (.call nnn) s = .next a)
    (hkept : SameStack a b) (hret : exec .ret b = .next c) : c.pc = s.pc ∧ SameStack s c := by
  cases (exec_call_of_room nnn hroom).symm.trans hcall
  have hsp : s.sp.val + 1 = b.sp.val := congrArg Fin.val hkept.sp.symm
  cases (exec_ret_of_nonempty (k := ⟨s.sp.val, hroom⟩) hsp).symm.trans hret
  refine ⟨?pc, { sp := rfl, cef := hkept.cef, slots := fun k hk => ?slots }⟩
  case pc =>
    refine (hkept.slots ⟨s.sp.val, hroom⟩ (Nat.lt_succ_self _)).trans ?_
    exact Vector.getElem_set_self _
  case slots =>
    refine (hkept.slots k (Nat.lt_succ_of_lt hk)).trans ?_
    exact Vector.getElem_set_ne hroom k.isLt (Nat.ne_of_gt hk)

/-- Settles O32: the inner call and return keep the stack, so the outer pair comes back too (`ret_after_call` twice). -/
theorem nestedCallsReturnInOrder : Obligations.NestedCallsReturnInOrder := by
  intro s a b b' c c' d m n hroom hcall hcall' hbstack hbsp hbcef hret hcstack hcsp hccef hret'
  have hasp : a.sp.val = s.sp.val + 1 := by
    cases (exec_call_of_room m (by omega)).symm.trans hcall
    rfl
  have hbkept : SameStack b b' := ⟨hbsp, hbcef, fun k _ => by rw [hbstack]⟩
  obtain ⟨hinnerpc, hinner⟩ := ret_after_call (by omega) hcall' hbkept hret
  have hckept : SameStack a c' :=
    ⟨hcsp.trans hinner.sp, hccef.trans hinner.cef, fun k hk => by rw [hcstack, hinner.slots k hk]⟩
  obtain ⟨houterpc, houter⟩ := ret_after_call (by omega) hcall hckept hret'
  exact ⟨hinnerpc, houterpc, houter.sp, houter.cef⟩

end Sys2Proof.Machine
end

section
/-! SUPPORT. The skips on a condition (42_skips.md R120 to R123, 47_keypad.md R185, R186): each handler is one `skipIf`. -/

namespace Sys2Proof.Machine

/-- A handler that is a skip on `c` moves `PC` by 2 more exactly where the condition that `c` decides holds (R97). -/
theorem givesPc_of_skipIf {i : Instr} {c : State → Bool} {p : State → Prop} [DecidablePred p]
    (h : ∀ s, exec i s = .next (s.skipIf (c s))) (hc : ∀ s, c s = true ↔ p s) :
    GivesPc i (fun s => if p s then s.pc + 2 else s.pc) := fun s => by
  refine ⟨_, h s, ?_⟩
  rw [skipIf_eq]
  exact ⟨by simp only [hc s], rfl, rfl, rfl⟩

/-- Settles O33: the Boolean comparison of each handler is the stated condition. -/
theorem skipsOnCompare : Obligations.SkipsOnCompare := fun _ _ _ =>
  ⟨givesPc_of_skipIf (fun _ => rfl) fun _ => beq_iff_eq, givesPc_of_skipIf (fun _ => rfl) fun _ => bne_iff_ne,
    givesPc_of_skipIf (fun _ => rfl) fun _ => beq_iff_eq, givesPc_of_skipIf (fun _ => rfl) fun _ => bne_iff_ne⟩

/-- The low four bits of a byte number the key that is its value modulo 16 (R188). -/
theorem keyDown_eq (s : State) (b : Byte) : s.keyDown b = s.keys[Fin.ofNat 16 b.toNat] := rfl

/-- Settles O34: both handlers look at the same key (`keyDown_eq`), one for down and one for up. -/
theorem skipsOnKey : Obligations.SkipsOnKey := fun x =>
  ⟨givesPc_of_skipIf (fun _ => rfl) fun s => by rw [keyDown_eq],
    givesPc_of_skipIf (fun _ => rfl) fun s => by rw [keyDown_eq, Bool.not_eq_true']⟩

end Sys2Proof.Machine
end

section
/-! SUPPORT. The two jumps (41_control_flow.md R111, R113): each handler is one `jumpTo`, and the sum of the computed jump does not wrap. -/

namespace Sys2Proof.Machine

theorem decodeWord_of_family1 {w : Word} (h : opOf w = 0x1) : decodeWord w = .ok (.jp (nnnOf w)) := by
  rw [decodeWord, h]
  rfl

theorem decodeWord_of_familyB {w : Word} (h : opOf w = 0xB) : decodeWord w = .ok (.jpV0 (nnnOf w)) := by
  rw [decodeWord, h]
  rfl

/-- An address and a byte add up to at most 0x10FE, so the 16-bit sum is the sum of the two numbers (R113). -/
theorem nnnAddr_add_zext16_toNat (nnn : BitVec 12) (b : Byte) : (nnnAddr nnn + zext16 b).toNat = nnn.toNat + b.toNat := by
  have hnnn : (nnnAddr nnn).toNat = nnn.toNat := BitVec.toNat_setWidth_of_le (by decide)
  have hb : (zext16 b).toNat = b.toNat := BitVec.toNat_setWidth_of_le (by decide)
  have hfits : nnn.toNat + b.toNat < 2 ^ 16 := by omega
  rw [BitVec.toNat_add, hnnn, hb, Nat.mod_eq_of_lt hfits]

/-- A handler that is one jump leaves the target in `PC` and keeps the registers and the stack. -/
theorem givesPc_of_jumpTo {i : Instr} {target : State → Word} (h : ∀ s, exec i s = .next (s.jumpTo (target s))) :
    GivesPc i target := fun s => ⟨_, h s, rfl, rfl, rfl, rfl⟩

/-- Settles O29: the top nibble selects each row (`opOf_of_selected`), both handlers are one jump, and the sum that JP_V0 jumps to does
not wrap (`nnnAddr_add_zext16_toNat`). -/
theorem jumpTargets : Obligations.JumpTargets := by
  refine ⟨⟨fun w hw => decodeWord_of_family1 (opOf_of_selected hw), fun _ => givesPc_of_jumpTo fun _ => rfl⟩,
    fun w hw => decodeWord_of_familyB (opOf_of_selected hw), fun nnn s => ?_⟩
  have hjump : GivesPc (.jpV0 nnn) (fun s => nnnAddr nnn + zext16 (s.readV 0)) := givesPc_of_jumpTo fun _ => rfl
  obtain ⟨t, ht, hpc, hkept⟩ := hjump s
  exact ⟨t, ht, (congrArg BitVec.toNat hpc).trans (nnnAddr_add_zext16_toNat nnn (s.readV 0)), hkept⟩

end Sys2Proof.Machine
end

section
/-! SUPPORT. Register loads, arithmetic and logic (43_alu.md R130 to R141). Each handler is one write of `V[x]`, or a write of VF and
then one of `V[x]`; what is left is the value of each byte written. -/

namespace Sys2Proof.Machine

/-! ### The rows of the register file (R85) -/

/-- A row whose mask is the top nibble alone decodes by what the decoder does with that nibble. -/
theorem rowDecodes_of_opOf {bits : Word} {build : Word → Instr} (h : ∀ w, opOf w = opOf bits → decodeWord w = .ok (build w)) :
    RowDecodes 0xF000 bits build := fun w hw => h w (opOf_of_selected hw)

/-- A row of family 8 decodes by what the family does with the row's low nibble (R76). -/
theorem rowDecodes_of_nOf {bits : Word} {build : Word → Instr} (hfamily : opOf bits = 0x8)
    (h : ∀ w, nOf w = nOf bits → decodeFamily8 w = .ok (build w)) : RowDecodes 0xF00F bits build := fun w hw => by
  have hop : opOf w = opOf bits := field_of_selected hw 12 4 (by decide)
  have hn : nOf w = nOf bits := field_of_selected hw 0 4 (by decide)
  rw [decodeWord_of_family8 (hop.trans hfamily), h w hn]

/-! ### The two shapes of a handler -/

/-- A handler that is one write of `V[x]`. -/
theorem givesRegister_of_writeV {i : Instr} {x : RegIdx} {result : State → Byte}
    (h : ∀ s, exec i s = .next (s.writeV x (result s))) : GivesRegister i x result := fun s =>
  ⟨_, h s, readV_writeV_self s x _, fun hx => readV_writeV_of_ne s _ (Ne.symm hx)⟩

/-- A handler that writes VF and then `V[x]` (R22, R141): the result is in `V[x]`, and the flag stays in VF unless `x` is VF. -/
theorem exec_flag_writeV {i : Instr} {s : State} {x : RegIdx} {f b : Byte}
    (h : exec i s = .next ((s.writeV vf f).writeV x b)) :
    ∃ t, exec i s = .next t ∧ t.readV x = b ∧ (x ≠ 15 → t.readV 15 = f) := by
  refine ⟨_, h, readV_writeV_self _ x b, fun hx => ?_⟩
  exact (readV_writeV_of_ne _ b (Ne.symm hx)).trans (readV_writeV_self s vf f)

/-! ### Loads and logic (R130 to R135) -/

theorem add_eq_ofNat_mod (a b : Byte) : a + b = BitVec.ofNat 8 ((a.toNat + b.toNat) % 256) :=
  BitVec.eq_of_toNat_eq (by simp [BitVec.toNat_add])

/-- Settles O25: the top nibble or the low nibble of family 8 selects each row, and each handler is one write of `V[x]`. -/
theorem registerLoadsAndLogic : Obligations.RegisterLoadsAndLogic := by
  refine ⟨⟨?ldImm, fun _ _ => givesRegister_of_writeV fun _ => rfl⟩,
    ⟨?addImm, fun _ kk => givesRegister_of_writeV fun s => by rw [← add_eq_ofNat_mod]; rfl⟩, ?family8⟩
  case ldImm => exact rowDecodes_of_opOf fun w hop => by rw [decodeWord, hop]; rfl
  case addImm => exact rowDecodes_of_opOf fun w hop => by rw [decodeWord, hop]; rfl
  case family8 =>
    refine ⟨⟨?ldReg, fun _ _ => givesRegister_of_writeV fun _ => rfl⟩, ⟨?orReg, fun _ _ => givesRegister_of_writeV fun _ => rfl⟩,
      ⟨?andReg, fun _ _ => givesRegister_of_writeV fun _ => rfl⟩, ?xorReg, fun _ _ => givesRegister_of_writeV fun _ => rfl⟩
    all_goals exact rowDecodes_of_nOf (by decide) fun w hn => by rw [decodeFamily8, hn]; rfl

/-! ### The flags (R136 to R140) -/

theorem flagByte_decide (p : Prop) [Decidable p] : flagByte (decide p) = if p then 1 else 0 := by
  simp only [flagByte, decide_eq_true_eq]

theorem flagByte_toNat (c : Bool) : (flagByte c).toNat = c.toNat := by
  cases c <;> rfl

/-- The ninth bit holds the carry, so the widened sum is the sum of the two numbers. -/
theorem wideSum_toNat (a b : Byte) : (wideSum a b).toNat = a.toNat + b.toNat := by
  have ha : (a.zeroExtend 9).toNat = a.toNat := BitVec.toNat_setWidth_of_le (by decide)
  have hb : (b.zeroExtend 9).toNat = b.toNat := BitVec.toNat_setWidth_of_le (by decide)
  have hfits : a.toNat + b.toNat < 2 ^ 9 := by omega
  rw [wideSum, BitVec.toNat_add, ha, hb, Nat.mod_eq_of_lt hfits]

theorem carryFlag_eq (a b : Byte) : carryFlag a b = if a.toNat + b.toNat > 255 then 1 else 0 := by
  rw [carryFlag, flagByte_decide, wideSum_toNat]

theorem greaterFlag_eq (a b : Byte) : greaterFlag a b = if a > b then 1 else 0 := flagByte_decide _

theorem lowBitFlag_toNat (a : Byte) : (lowBitFlag a).toNat = a.toNat % 2 := by
  rw [lowBitFlag, flagByte_toNat, BitVec.getLsbD, Nat.toNat_testBit, Nat.pow_zero, Nat.div_one]

theorem topBitFlag_toNat (a : Byte) : (topBitFlag a).toNat = a.toNat / 128 := by
  have ha := a.isLt
  rw [topBitFlag, flagByte_toNat, BitVec.getLsbD, Nat.toNat_testBit]
  omega

/-! ### Addition with carry (R136) -/

/-- Settles O26: the sum is formed before the carry is written, so both come from the old registers. -/
theorem addWithCarry : Obligations.AddWithCarry := by
  intro s x y
  obtain ⟨t, ht, hres, hflag⟩ := exec_flag_writeV (i := .addReg x y) (s := s) rfl
  refine ⟨t, ht, ?_, fun hx => (hflag hx).trans (carryFlag_eq _ _)⟩
  rw [hres, BitVec.truncate, BitVec.toNat_setWidth, wideSum_toNat]

/-! ### Subtraction in every aliasing with VF (R137, R139, R141) -/

/-- A handler that writes a flag and then combines `V[x]` and `V[y]` as that write left them: an operand that is VF reads as the
flag (log 6). These are the columns of the table of R141. -/
theorem exec_flag_op_columns {i : Instr} {s : State} {x y : RegIdx} {f : Byte} (op : Byte → Byte → Byte)
    (h : exec i s = .next ((s.writeV vf f).writeV x (op ((s.writeV vf f).readV x) ((s.writeV vf f).readV y)))) :
    ∃ t, exec i s = .next t ∧
      (x ≠ 15 → y ≠ 15 → t.readV x = op (s.readV x) (s.readV y) ∧ t.readV 15 = f) ∧
      (x = 15 → y ≠ 15 → t.readV 15 = op f (s.readV y)) ∧
      (x ≠ 15 → y = 15 → t.readV x = op (s.readV x) f ∧ t.readV 15 = f) ∧
      (x = 15 → y = 15 → t.readV 15 = op f f) := by
  obtain ⟨t, ht, hres, hflag⟩ := exec_flag_writeV h
  have hvf : (s.writeV vf f).readV 15 = f := readV_writeV_self s vf f
  have hother {r : RegIdx} (hr : r ≠ 15) : (s.writeV vf f).readV r = s.readV r := readV_writeV_of_ne s f hr
  refine ⟨t, ht, fun hx hy => ⟨?_, hflag hx⟩, ?_, fun hx hy => ⟨?_, hflag hx⟩, ?_⟩
  · rw [hres, hother hx, hother hy]
  · rintro rfl hy
    rw [hres, hvf, hother hy]
  · rw [hres, hother hx, hy, hvf]
  · rintro rfl rfl
    rw [hres, hvf]

/-- Settles O27: the columns of `exec_flag_op_columns` for the difference one way and the other; a difference of VF and itself is 0. -/
theorem subtractWithFlag : Obligations.SubtractWithFlag := by
  intro s x y
  obtain ⟨t, ht, hneither, hx, hy, hboth⟩ := exec_flag_op_columns (i := .sub x y) (s := s) (fun a b => a - b) rfl
  obtain ⟨u, hu, hneither', hx', hy', hboth'⟩ := exec_flag_op_columns (i := .subn x y) (s := s) (fun a b => b - a) rfl
  exact ⟨⟨t, _, ht, greaterFlag_eq _ _, hneither, hx, hy, fun h h' => (hboth h h').trans (BitVec.sub_self _)⟩,
    ⟨u, _, hu, greaterFlag_eq _ _, hneither', hx', hy', fun h h' => (hboth' h h').trans (BitVec.sub_self _)⟩⟩

/-! ### Shifts in place (R138, R140, R141) -/

theorem toNat_shiftRight_one (a : Byte) : (a >>> 1).toNat = a.toNat / 2 := by
  rw [BitVec.toNat_ushiftRight, Nat.shiftRight_eq_div_pow, Nat.pow_one]

theorem toNat_shiftLeft_one (a : Byte) : (a <<< 1).toNat = a.toNat * 2 % 256 := by
  rw [BitVec.toNat_shiftLeft, Nat.shiftLeft_eq]

/-- A handler that writes a flag and then changes `V[x]` as that write left it. -/
theorem exec_flag_unary_columns {i : Instr} {s : State} {x : RegIdx} {f : Byte} (op : Byte → Byte)
    (h : exec i s = .next ((s.writeV vf f).writeV x (op ((s.writeV vf f).readV x)))) :
    ∃ t, exec i s = .next t ∧ (x ≠ 15 → t.readV x = op (s.readV x) ∧ t.readV 15 = f) ∧ (x = 15 → t.readV 15 = op f) := by
  obtain ⟨t, ht, hneither, -, -, hboth⟩ := exec_flag_op_columns (y := x) (fun a _ => op a) h
  exact ⟨t, ht, fun hx => hneither hx hx, fun hx => hboth hx hx⟩

/-- Settles O28: the columns of `exec_flag_unary_columns`; a flag shifted right by one is 0, and shifted left by one its double. -/
theorem shiftWithFlag : Obligations.ShiftWithFlag := by
  intro s x y
  obtain ⟨t, ht, hother, hvf⟩ := exec_flag_unary_columns (i := .shr x y) (s := s) (fun a => a >>> 1) rfl
  obtain ⟨u, hu, hother', hvf'⟩ := exec_flag_unary_columns (i := .shl x y) (s := s) (fun a => a <<< 1) rfl
  refine ⟨⟨t, ht, fun hx => ?shr, fun hx => ?shrVf⟩, ⟨u, hu, fun hx => ?shl, fun hx => ?shlVf⟩⟩
  case shr =>
    obtain ⟨hres, hflag⟩ := hother hx
    rw [hres, hflag, toNat_shiftRight_one, lowBitFlag_toNat]
    exact ⟨rfl, rfl⟩
  case shrVf =>
    refine BitVec.eq_of_toNat_eq ?_
    rw [hvf hx, toNat_shiftRight_one, lowBitFlag_toNat]
    exact Nat.div_eq_of_lt (Nat.mod_lt _ Nat.two_pos)
  case shl =>
    obtain ⟨hres, hflag⟩ := hother' hx
    rw [hres, hflag, toNat_shiftLeft_one, topBitFlag_toNat]
    exact ⟨rfl, rfl⟩
  case shlVf =>
    have hbyte := (s.readV 15).isLt
    rw [hvf' hx, toNat_shiftLeft_one, topBitFlag_toNat, hx]
    omega

end Sys2Proof.Machine
end

section
/-! SUPPORT. The index register and the data moves (44_index_memory.md R150 to R155): the value that each writer of `I` leaves, and the
byte that each store or load leaves at an offset from `I`. -/

namespace Sys2Proof.Machine

/-! ### The index register (R150 to R152) -/

theorem nnnAddr_toNat (nnn : BitVec 12) : (nnnAddr nnn).toNat = nnn.toNat := BitVec.toNat_setWidth_of_le (by decide)

theorem zext16_toNat (b : Byte) : (zext16 b).toNat = b.toNat := BitVec.toNat_setWidth_of_le (by decide)

/-- The last glyph address is 0x50 + 5 * 255, so the 16-bit sum does not wrap (R152; log 21). -/
theorem glyphAddr_toNat (b : Byte) : (glyphAddr b).toNat = 0x50 + 5 * b.toNat := by
  have hfive : (5 : Word).toNat = 5 := rfl
  have hb := b.isLt
  simp only [glyphAddr, fontBase, BitVec.toNat_add, BitVec.toNat_mul, BitVec.toNat_ofNat, zext16_toNat, hfive]
  omega

/-- Settles O36: the top nibble selects the row, and the value is zero-extended. -/
theorem loadIndexImmediate : Obligations.LoadIndexImmediate := by
  refine ⟨rowDecodes_of_opOf fun w hop => ?decodes, fun nnn s => ⟨_, rfl, nnnAddr_toNat nnn, rfl⟩⟩
  case decodes =>
    rw [decodeWord, hop]
    rfl

/-- Settles O37: the sum wraps at 16 bits (log 2), the glyph address cannot (`glyphAddr_toNat`). -/
theorem indexArithmetic : Obligations.IndexArithmetic := by
  refine fun s x => ⟨⟨_, rfl, ?sum, rfl⟩, ⟨_, rfl, glyphAddr_toNat (s.readV x), rfl⟩⟩
  case sum =>
    calc (s.i + zext16 (s.readV x)).toNat
      _ = (s.i.toNat + (zext16 (s.readV x)).toNat) % 65536 := BitVec.toNat_add _ _
      _ = (s.i.toNat + (s.readV x).toNat) % 65536 := by rw [zext16_toNat]

/-! ### Decimal digits in memory (R153) -/

/-- After `Fx33` the byte at `I + k` is digit `k` of `V[x]`, hundreds first. -/
theorem readByte_ldB_toNat {s t : State} {x : RegIdx} (hinv : s.Inv) (h : exec (.ldB x) s = .next t) (k : Fin 3) :
    (t.readByte (s.dataAddr k.val)).toNat =
      [(s.readV x).toNat / 100, (s.readV x).toNat / 10 % 10, (s.readV x).toNat % 10][k.val]'k.isLt := by
  cases h
  have hlen : (bcdDigits (s.readV x)).length ≤ Config.memSize := by rw [bcdDigits_length]; decide
  have hk : k.val < ((bcdDigits (s.readV x)).map BitVec.toNat).length := k.isLt
  calc ((s.storeBytes (s.dataAddr 0) (bcdDigits (s.readV x))).readByte (s.dataAddr k.val)).toNat
    _ = ((bcdDigits (s.readV x))[k.val]'k.isLt).toNat := congrArg _ (readByte_storeBytes_inside hinv hlen k.isLt rfl)
    _ = ((bcdDigits (s.readV x)).map BitVec.toNat)[k.val] := (List.getElem_map _).symm
    _ = _ := by simp only [bcdDigits_toNat]

/-- Settles O38: one byte of the store for each digit (`readByte_ldB_toNat`). -/
theorem decimalDigitsAreStored : Obligations.DecimalDigitsAreStored := fun s x hinv =>
  have hdigit := readByte_ldB_toNat (s := s) (x := x) hinv rfl
  ⟨_, rfl, hdigit 0, hdigit 1, hdigit 2⟩

/-! ### The register file in memory (R154, R155) -/

/-- After `Fx65` register `r` is the byte at `I + r`, whatever `x` is (R155; log 7). -/
theorem readV_ldRegs {s t : State} {x : RegIdx} (h : exec (.ldRegs x) s = .next t) (r : RegIdx) :
    t.readV r = s.readByte (s.dataAddr r.val) := by
  cases h
  exact Vector.getElem_ofFn r.isLt

/-- Settles O39: `readByte_stRegs` for the store, `readV_ldRegs` for the load. -/
theorem registerFileMoves : Obligations.RegisterFileMoves := fun _ x =>
  ⟨fun hinv => ⟨_, rfl, fun r => readByte_stRegs (x := x) hinv rfl r rfl⟩, ⟨_, rfl, readV_ldRegs (x := x) rfl⟩⟩

/-- Settles O40: the load reads, from the same memory at the same `I`, the bytes that the store left. -/
theorem storeThenLoadRestoresRegisters : Obligations.StoreThenLoadRestoresRegisters := by
  intro s t t' u x y hinv hstore hmem hi hload r
  calc u.readV r
    _ = t'.readByte (t'.dataAddr r.val) := readV_ldRegs hload r
    _ = t.readByte (s.dataAddr r.val) := by simp only [State.readByte, State.dataAddr, hmem, hi]
    _ = s.readV r := readByte_stRegs hinv hstore r rfl

end Sys2Proof.Machine
end

section
/-! SUPPORT. The random byte and the timers (45_random_timers.md R165 to R168): the byte that a draw leaves under its mask, and the
moves between a register and a timer. -/

namespace Sys2Proof.Machine

/-! ### The random byte (R165, R213) -/

/-- `Cxkk` leaves the next byte of the source under the mask, and the source as one draw leaves it. -/
theorem exec_rnd (s : State) (x : RegIdx) (kk : Byte) :
    ∃ t, exec (.rnd x kk) s = .next t ∧ t.readV x = s.rng.peek &&& kk ∧ t.rng = s.rng.advance :=
  ⟨_, rfl, readV_writeV_self _ x _, rfl⟩

theorem and_mask_and_not_mask (b kk : Byte) : b &&& kk &&& ~~~kk = 0 := by
  rw [BitVec.and_assoc, BitVec.and_not_self]
  exact BitVec.and_zero

/-- Settles O41: an injected byte is drawn first (`peek_injected`), the free value when there is none (`peek_drawn`); the mask law
does not look at the byte. -/
theorem randomByteUnderMask : Obligations.RandomByteUnderMask := by
  intro s x kk
  obtain ⟨t, ht, hval, hrng⟩ := exec_rnd s x kk
  refine ⟨t, ht, fun b rest hsome => ?injected, fun hnone => ?drawn, ?mask⟩
  case injected =>
    obtain ⟨hpeek, hadvance⟩ := peek_injected hsome
    exact ⟨by rw [hval, hpeek], hrng.trans hadvance⟩
  case drawn =>
    obtain ⟨hpeek, hadvance⟩ := peek_drawn hnone
    exact ⟨by rw [hval, hpeek], hrng.trans hadvance⟩
  case mask => rw [hval, and_mask_and_not_mask]

/-! ### The timers (R166 to R168) -/

/-- A row of family F decodes by what the family does with the row's low byte (R78). -/
theorem rowDecodes_of_kkOf_familyF {bits : Word} {build : Word → Instr} (hfamily : opOf bits = 0xF)
    (h : ∀ w, kkOf w = kkOf bits → decodeFamilyF w = .ok (build w)) : RowDecodes 0xF0FF bits build := fun w hw => by
  have hop : opOf w = opOf bits := field_of_selected hw 12 4 (by decide)
  have hkk : kkOf w = kkOf bits := field_of_selected hw 0 8 (by decide)
  rw [decodeWord_of_familyF (hop.trans hfamily), h w hkk]

/-- Settles O42: the low byte selects each row of family F; `Fx07` is one write of `V[x]`, the other two set one timer each. -/
theorem timerMoves : Obligations.TimerMoves := by
  refine ⟨⟨?ldVxDt, fun _ => givesRegister_of_writeV fun _ => rfl⟩, ⟨?ldDtVx, fun _ _ => ⟨_, rfl, rfl, rfl⟩⟩,
    ?ldStVx, fun _ _ => ⟨_, rfl, rfl, rfl⟩⟩
  all_goals exact rowDecodes_of_kkOf_familyF (by decide) fun w hkk => by rw [decodeFamilyF, hkk]; rfl

end Sys2Proof.Machine
end

section
/-! SUPPORT. The display (46_display.md R175, R176). A drawing that starts from any framebuffer flips the cells of a set and reports
whether one of them was lit; two drawings whose sets do not meet make one drawing of the union. A sprite is such a drawing, pixel by
pixel: it is narrower and lower than the screen, so that no two of its pixels wrap onto one cell. -/

namespace Sys2Proof.Machine

/-! ### Drawing a set of cells -/

/-- From `before` to `after` exactly the `cells` flip, and the collision flag is raised when one of them was lit. -/
structure Draws (cells : Nat → Nat → Prop) (before after : Framebuffer × Bool) : Prop where
  flips : ∀ x y, x < 64 → y < 32 → (after.1.cell x y ≠ before.1.cell x y ↔ cells x y)
  collides : after.2 = true ↔ before.2 = true ∨ ∃ x y, x < 64 ∧ y < 32 ∧ cells x y ∧ before.1.cell x y = true

section
variable {P Q : Nat → Nat → Prop} {a b c : Framebuffer × Bool}

theorem Draws.congr (h : Draws P a b) (hPQ : ∀ x y, P x y ↔ Q x y) : Draws Q a b := by
  rwa [show Q = P from funext fun x => funext fun y => propext (hPQ x y).symm]

theorem Draws.nothing (hP : ∀ x y, ¬P x y) (a : Framebuffer × Bool) : Draws P a a :=
  ⟨by simp [hP], by simp [hP]⟩

/-- A cell outside the set of a drawing keeps its value. -/
theorem Draws.cell_of_not (h : Draws P a b) {x y : Nat} (hx : x < 64) (hy : y < 32) (hP : ¬P x y) :
    b.1.cell x y = a.1.cell x y := Decidable.not_not.mp (mt (h.flips x y hx hy).mp hP)

/-- A cell in the set of a drawing takes the other value. -/
theorem Draws.cell_of_mem (h : Draws P a b) {x y : Nat} (hx : x < 64) (hy : y < 32) (hP : P x y) :
    b.1.cell x y = !a.1.cell x y := Bool.eq_not.mpr ((h.flips x y hx hy).mpr hP)

/-- Two drawings whose sets do not meet are one drawing of the union. -/
theorem Draws.trans (hab : Draws P a b) (hbc : Draws Q b c) (hdisj : ∀ x y, P x y → ¬Q x y) :
    Draws (fun x y => P x y ∨ Q x y) a c where
  flips x y hx hy := by
    by_cases hP : P x y
    · simp [hP, hbc.cell_of_not hx hy (hdisj x y hP), hab.cell_of_mem hx hy hP]
    · simp only [hP, false_or, ← hbc.flips x y hx hy, hab.cell_of_not hx hy hP]
  collides := by
    have hQ (x y) : (x < 64 ∧ y < 32 ∧ Q x y ∧ b.1.cell x y = true) ↔ (x < 64 ∧ y < 32 ∧ Q x y ∧ a.1.cell x y = true) :=
      and_congr_right fun hx => and_congr_right fun hy => and_congr_right fun hq => by
        rw [hab.cell_of_not hx hy fun hp => hdisj x y hp hq]
    simp only [hbc.collides, hab.collides, hQ, or_and_right, and_or_left, exists_or, or_assoc]

/-- A drawing in `n` steps whose sets do not meet draws the union of the sets. -/
theorem Draws.foldl_range {n : Nat} {P : Nat → Nat → Nat → Prop} {f : Framebuffer × Bool → Nat → Framebuffer × Bool}
    (hstep : ∀ k a, Draws (P k) a (f a k)) (hdisj : ∀ j k, j < k → k < n → ∀ x y, P j x y → ¬P k x y)
    (a : Framebuffer × Bool) : Draws (fun x y => ∃ k < n, P k x y) a ((List.range n).foldl f a) := by
  induction n with
  | zero => exact .nothing (by simp) a
  | succ n ih =>
    rw [List.range_succ, List.foldl_append, List.foldl_cons, List.foldl_nil]
    have hfirst := ih fun j k hjk hk => hdisj j k hjk (by omega)
    refine (hfirst.trans (hstep n _) ?_).congr fun x y => Nat.exists_lt_succ_right.symm
    rintro x y ⟨j, hj, hPj⟩
    exact hdisj j n hj (Nat.lt_succ_self n) x y hPj

end

/-! ### A sprite (R176) -/

theorem drawPixel_draws (a : Framebuffer × Bool) (cx cy : Nat) :
    Draws (fun x y => cx % 64 = x ∧ cy % 32 = y) a (drawPixel a cx cy) where
  flips x y hx hy := by
    have hwrap : (cx % 64 = x ∧ cy % 32 = y) ↔ (x % 64 = cx % 64 ∧ y % 32 = cy % 32) := by omega
    rw [hwrap, drawPixel, cell_toggle]
    by_cases hcell : x % 64 = cx % 64 ∧ y % 32 = cy % 32 <;> simp [hcell]
  collides := by
    have hwrap : a.1.cell (cx % 64) (cy % 32) = a.1.cell cx cy := cell_congr _ (Nat.mod_mod _ _) (Nat.mod_mod _ _)
    have hx : cx % 64 < 64 := Nat.mod_lt _ (by decide)
    have hy : cy % 32 < 32 := Nat.mod_lt _ (by decide)
    simp only [drawPixel, Bool.or_eq_true, ← hwrap]
    refine or_congr_right ⟨fun h => ⟨_, _, hx, hy, ⟨rfl, rfl⟩, h⟩, ?_⟩
    rintro ⟨x, y, -, -, ⟨rfl, rfl⟩, h⟩
    exact h

/-- A row is narrower than the screen, so that no two of its pixels fall on one cell. -/
theorem drawRow_draws (b : Byte) (px cy : Nat) (a : Framebuffer × Bool) :
    Draws (fun x y => ∃ c < 8, spriteBit b c = true ∧ (px + c) % 64 = x ∧ cy % 32 = y) a (drawRow b px cy a) := by
  refine Draws.foldl_range (fun c a => ?_) (fun j k hjk hk x y hj hk' => by omega) a
  split
  · exact (drawPixel_draws a (px + c) cy).congr (by simp [*])
  · exact .nothing (by simp [*]) a

/-- The cells under the 1 bits of the sprite of `n` rows at `I`, its top-left pixel in column `px`, row `py`. -/
def State.spriteCells (s : State) (px py n x y : Nat) : Prop :=
  ∃ r < n, ∃ c < 8, spriteBit (s.readByte (s.dataAddr r)) c = true ∧ (px + c) % 64 = x ∧ (py + r) % 32 = y

/-- A sprite is lower than the screen, so that no two of its rows fall on one row of cells. -/
theorem drawSprite_draws (s : State) (px py : Nat) {n : Nat} (hn : n ≤ 32) :
    Draws (s.spriteCells px py n) (s.fb, false) (drawSprite s px py n) :=
  Draws.foldl_range (fun r a => drawRow_draws (s.readByte (s.dataAddr r)) px (py + r) a)
    (fun j k hjk hk x y ⟨_, _, _, _, hj⟩ ⟨_, _, _, _, hk'⟩ => by omega) (s.fb, false)

/-- `Dxyn` draws its sprite from the registers as they stand and leaves the collision in VF. -/
theorem exec_drw_draws {s t : State} {x y : RegIdx} {n : Nibble} (h : exec (.drw x y n) s = .next t) :
    ∃ hit, t.readV 15 = flagByte hit ∧
      Draws (s.spriteCells (s.readV x).toNat (s.readV y).toNat n.toNat) (s.fb, false) (t.fb, hit) := by
  obtain rfl := Host.Outcome.next.inj h
  exact ⟨_, readV_writeV_self _ vf _, drawSprite_draws s _ _ (by omega)⟩

/-! ### The collision flag, and drawing twice -/

theorem flagByte_of_iff {hit : Bool} {p : Prop} [Decidable p] (h : hit = true ↔ p) : flagByte hit = if p then 1 else 0 := by
  simp only [flagByte, h]

/-- The sprite after `Dxyn` is the sprite before it: a draw writes neither memory nor `I`. -/
theorem spriteCells_drw {s t : State} {x y : RegIdx} {n : Nibble} (h : exec (.drw x y n) s = .next t) :
    t.spriteCells = s.spriteCells := by
  obtain rfl := Host.Outcome.next.inj h
  rfl

theorem readV_drw_of_ne {s t : State} {x y r : RegIdx} {n : Nibble} (h : exec (.drw x y n) s = .next t) (hr : r ≠ 15) :
    t.readV r = s.readV r := by
  obtain rfl := Host.Outcome.next.inj h
  exact readV_writeV_of_ne _ _ hr

/-- A byte with a 1 bit shows a pixel in some column (log 15). -/
theorem exists_spriteBit_iff {b : Byte} : (∃ c < 8, spriteBit b c = true) ↔ b ≠ 0 := by
  refine ⟨?_, fun hb => ?_⟩
  · rintro ⟨c, -, hc⟩ rfl
    simp [spriteBit] at hc
  · refine Classical.byContradiction fun hnone => hb (BitVec.eq_of_getLsbD_eq fun k hk => ?_)
    have hbit : spriteBit b (7 - k) ≠ true := fun h => hnone ⟨7 - k, by omega, h⟩
    simpa [spriteBit, show 7 - (7 - k) = k by omega] using hbit

/-- A sprite covers some cell exactly when it has a 1 bit. -/
theorem exists_spriteCells_iff (s : State) (px py n : Nat) :
    (∃ x y, x < 64 ∧ y < 32 ∧ s.spriteCells px py n x y) ↔ ∃ r < n, s.readByte (s.dataAddr r) ≠ 0 := by
  constructor
  · rintro ⟨x, y, -, -, r, hr, c, hc, hbit, -⟩
    exact ⟨r, hr, exists_spriteBit_iff.mp ⟨c, hc, hbit⟩⟩
  · rintro ⟨r, hr, hb⟩
    obtain ⟨c, hc, hbit⟩ := exists_spriteBit_iff.mpr hb
    exact ⟨_, _, Nat.mod_lt _ (by decide), Nat.mod_lt _ (by decide), r, hr, c, hc, hbit, rfl, rfl⟩

section
variable {P : Nat → Nat → Prop} {f g k : Framebuffer} {hit hit' : Bool}

/-- A drawing that starts with the flag clear raises it exactly when some lit cell becomes dark. -/
theorem Draws.hit_iff_cleared (h : Draws P (f, false) (g, hit)) :
    hit = true ↔ ∃ x y, x < 64 ∧ y < 32 ∧ f.cell x y = true ∧ g.cell x y = false := by
  simp only [h.collides, Bool.false_eq_true, false_or]
  refine exists₂_congr fun x y => and_congr_right fun hx => and_congr_right fun hy => ?_
  rw [and_comm, and_congr_right_iff]
  intro hlit
  rw [← h.flips x y hx hy, hlit, ne_eq, Bool.not_eq_true]

/-- Drawing one set of cells twice restores the framebuffer. -/
theorem Draws.twice (h : Draws P (f, false) (g, hit)) (h' : Draws P (g, false) (k, hit')) : k = f :=
  framebuffer_ext fun x y hx hy => by
    by_cases hP : P x y
    · rw [h'.cell_of_mem hx hy hP, h.cell_of_mem hx hy hP, Bool.not_not]
    · rw [h'.cell_of_not hx hy hP, h.cell_of_not hx hy hP]

/-- A draw onto a dark screen meets no lit cell. -/
theorem Draws.no_hit_of_dark (h : Draws P (.dark, false) (g, hit)) : hit = false := by
  simpa using h.collides

/-- The second draw of a set onto a dark screen meets a lit cell exactly when the set is not empty. -/
theorem Draws.hit_twice_of_dark (h : Draws P (.dark, false) (g, hit)) (h' : Draws P (g, false) (k, hit')) :
    hit' = true ↔ ∃ x y, x < 64 ∧ y < 32 ∧ P x y := by
  simp only [h'.collides, Bool.false_eq_true, false_or]
  refine exists₂_congr fun x y => and_congr_right fun hx => and_congr_right fun hy => and_iff_left_of_imp fun hP => ?_
  rw [h.cell_of_mem hx hy hP, dark_cell, Bool.not_false]

end

/-! ### The instructions -/

/-- Settles O44: the draw of the sprite's cells (`exec_drw_draws`), whose flag says whether a lit cell became dark. -/
theorem spriteTogglesItsCells : Obligations.SpriteTogglesItsCells := by
  intro s x y n
  obtain ⟨t, ht⟩ := everyHandlerCompletes (.drw x y n) s
  obtain ⟨hit, hvf, hdraws⟩ := exec_drw_draws ht
  have hcleared := hdraws.hit_iff_cleared
  refine ⟨t, ht, fun cx cy hx hy => (hdraws.flips cx cy hx hy).trans ?cells, fun h => ?hit, fun h => ?miss⟩
  case cells =>
    simp only [State.spriteCells, spriteBit]
    constructor
    · rintro ⟨r, hr, c, hc, hbit, hcx, hcy⟩
      exact ⟨r, c, hr, hc, hcx, hcy, hbit⟩
    · rintro ⟨r, c, hr, hc, hcx, hcy, hbit⟩
      exact ⟨r, hr, c, hc, hbit, hcx, hcy⟩
  case hit => rw [hvf, hcleared.mpr h]; rfl
  case miss => rw [hvf, Bool.eq_false_iff.mpr (mt hcleared.mp h)]; rfl

/-- Settles O45: both draws are of the same cells, since the first writes neither the sprite nor the coordinates. -/
theorem drawingTwiceRestores : Obligations.DrawingTwiceRestores := by
  intro s t u x y n hx hy hst htu
  obtain ⟨hit, hvf, hfirst⟩ := exec_drw_draws hst
  obtain ⟨hit', hvf', hsecond⟩ := exec_drw_draws htu
  rw [spriteCells_drw hst, readV_drw_of_ne hst hx, readV_drw_of_ne hst hy] at hsecond
  refine ⟨hfirst.twice hsecond, fun hdark => ?_⟩
  rw [hdark] at hfirst
  have hrows : (∃ r < n.toNat, s.readByte (s.dataAddr r) ≠ 0) ↔
      ∃ r : Fin 15, r.val < n.toNat ∧ s.readByte (s.dataAddr r.val) ≠ 0 :=
    ⟨fun ⟨r, hr, hb⟩ => ⟨⟨r, by omega⟩, hr, hb⟩, fun ⟨r, hr, hb⟩ => ⟨r, hr, hb⟩⟩
  have hhit' := (hfirst.hit_twice_of_dark hsecond).trans ((exists_spriteCells_iff s _ _ _).trans hrows)
  refine ⟨by rw [hvf, hfirst.no_hit_of_dark]; rfl, ?_⟩
  rw [hvf', flagByte_of_iff hhit']

/-- Settles O43: the handler is one write of the framebuffer, and every cell of it is dark. -/
theorem clearScreen : Obligations.ClearScreen := fun s =>
  ⟨_, rfl, (AgreeOutside.refl _ s).set_fb List.mem_cons_self _, fun cx cy _ _ => dark_cell cx cy⟩

end Sys2Proof.Machine
end

section
/-! SUPPORT. The key wait (47_keypad.md R187, R242): the least key that is down goes to the register, and with no key down the rewind
takes back the advance, so that the cycle shows only the fetch and the tick. -/

namespace Sys2Proof.Machine

/-- A byte holds any key number, so the register gets the number itself (R187). -/
theorem keyByte_toNat (k : KeyIdx) : (BitVec.ofNat 8 k.val).toNat = k.val :=
  Nat.mod_eq_of_lt (Nat.lt_trans k.isLt (by decide))

/-- Settles O35: the least key down is the key the handler looks for (`firstKeyDown_eq_some`), and it finds none exactly when none is
down (`firstKeyDown_eq_none`). -/
theorem keyWaitStoresLeastKey : Obligations.KeyWaitStoresLeastKey := by
  intro s x
  cases hfirst : s.firstKeyDown with
  | some least =>
    refine ⟨_, exec_ldVxK_of_key x hfirst, fun k hdown hlower => ⟨?_, rfl⟩, fun hnone => ?_⟩
    · cases hfirst.symm.trans (firstKeyDown_eq_some.mpr ⟨hdown, hlower⟩)
      rw [readV_writeV_self, keyByte_toNat]
    · cases hfirst.symm.trans (firstKeyDown_eq_none.mpr hnone)
  | none =>
    refine ⟨_, exec_ldVxK_of_no_key x hfirst, fun k hdown _ => ?_, fun _ => ⟨rfl, rfl⟩⟩
    cases hdown.symm.trans (firstKeyDown_eq_none.mp hfirst k)

/-- The rewind takes back the advance of the same cycle, also where `PC` wraps (R93, R187; log 2). -/
theorem rewind_beginCycle (s : State) :
    s.beginCycle.rewind =
      { s with keys := s.keyIn.head?.getD s.keys, keyIn := s.keyIn.tail, ir := s.fetchWord } := by
  rw [beginCycle_eq, State.rewind, BitVec.add_sub_cancel]

/-- Settles O23: the wait finds no key among the levels sampled for its cycle, and its rewind leaves `PC` where the cycle began
(`rewind_beginCycle`). -/
theorem keyWaitOnlyTicks : Obligations.KeyWaitOnlyTicks := by
  intro s x hi hup
  have hnone : s.beginCycle.firstKeyDown = none := by
    rw [firstKeyDown_eq_none, beginCycle_eq]
    exact hup
  calc step s
    _ = .next s.beginCycle.rewind.tick := step_of_decoded (nextInstr_eq_some_iff.mp hi) (exec_ldVxK_of_no_key x hnone)
    _ = _ := by rw [rewind_beginCycle]; rfl

end Sys2Proof.Machine
end

section
/-! SUPPORT. The critical error flag (60_exceptions.md R201, R202): the one list of what a handler and a cycle may do to it. No entry
of the list writes none, so that a run that has gone wrong stays so. -/

namespace Sys2Proof.Machine

/-- What a handler does to `CEF`: a return records underflow on an empty stack, a call overflow on a full one, and nothing else writes
it (R98, R99, R202). -/
theorem exec_cef {i : Instr} {s t : State} (h : exec i s = .next t) :
    (i = .ret ∧ s.sp = 0 ∧ t.cef = .stackUnderflow) ∨
    (∃ nnn, i = .call nnn ∧ s.sp = 16 ∧ t.cef = .stackOverflow) ∨
    ((i = .ret → s.sp ≠ 0) ∧ (∀ nnn, i = .call nnn → s.sp ≠ 16) ∧ t.cef = s.cef) := by
  cases i with
  | ret =>
    cases h
    obtain ⟨hempty, hpop⟩ | ⟨hne, hpop⟩ := pop_cases s <;> rw [jumpTo_cef, hpop]
    · exact .inl ⟨rfl, Fin.ext hempty, rfl⟩
    · exact .inr (.inr ⟨fun _ hsp => hne (congrArg Fin.val hsp), nofun, rfl⟩)
  | call nnn =>
    cases h
    obtain ⟨hroom, hpush⟩ | ⟨hfull, hpush⟩ := push_cases s s.pc <;> rw [jumpTo_cef, hpush]
    · exact .inr (.inr ⟨nofun, fun _ _ hsp => Nat.ne_of_lt hroom (congrArg Fin.val hsp), rfl⟩)
    · exact .inr (.inl ⟨nnn, rfl, Fin.ext hfull, rfl⟩)
  | _ => exact .inr (.inr ⟨nofun, nofun, (exec_frame h).cef (by simp [writtenParts])⟩)

/-- What a cycle does to `CEF`: the fetch and the tick leave it alone, so it is what the handler does (`exec_cef`). -/
theorem step_cef {s t : State} (h : step s = .next t) :
    (s.nextInstr = some .ret ∧ s.sp = 0 ∧ t.cef = .stackUnderflow) ∨
    (∃ nnn, s.nextInstr = some (.call nnn) ∧ s.sp = 16 ∧ t.cef = .stackOverflow) ∨
    ((s.nextInstr = some .ret → s.sp ≠ 0) ∧ (∀ nnn, s.nextInstr = some (.call nnn) → s.sp ≠ 16) ∧ t.cef = s.cef) := by
  have hsp : s.beginCycle.sp = s.sp := by rw [beginCycle_eq]
  have hcef : s.beginCycle.cef = s.cef := by rw [beginCycle_eq]
  obtain ⟨i, u, hi, hu, rfl⟩ | ⟨e, he, rfl⟩ := step_cases h
  · simpa only [nextInstr_of_decoded hi, Option.some.injEq, hsp, hcef, tick_cef] using exec_cef hu
  · have hnone (i : Instr) : s.nextInstr ≠ some i := fun hi => nomatch he.symm.trans (nextInstr_eq_some_iff.mp hi)
    exact .inr (.inr ⟨fun hret => absurd hret (hnone _), fun nnn hcall => absurd hcall (hnone _), hcef⟩)

/-- Settles O15: the three cases of `step_cef` exclude one another by the instruction and the stack pointer. -/
theorem errorFlagRecordsStackFaultsOnly : Obligations.ErrorFlagRecordsStackFaultsOnly := by
  intro s t h
  obtain ⟨hi, hsp, hcef⟩ | ⟨nnn, hi, hsp, hcef⟩ | ⟨hret, hcall, hcef⟩ := step_cef h
  · exact ⟨fun _ _ => hcef, fun _ hcall => (nomatch hi.symm.trans hcall), fun hno _ => absurd hsp (hno hi)⟩
  · exact ⟨fun hret => (nomatch hi.symm.trans hret), fun _ _ _ => hcef, fun _ hno => absurd hsp (hno nnn hi)⟩
  · exact ⟨fun hi hsp => absurd hsp (hret hi), fun nnn hi hsp => absurd hsp (hcall nnn hi), fun _ _ => hcef⟩

/-- No cycle takes a recorded fault back: it records one or keeps the flag (`step_cef`). -/
theorem step_goneWrong {s t : State} (hwrong : s.GoneWrong) (h : step s = .next t) : t.GoneWrong := by
  obtain ⟨-, -, hcef⟩ | ⟨-, -, -, hcef⟩ | ⟨-, -, hcef⟩ := step_cef h <;> rw [State.GoneWrong, hcef]
  · exact nofun
  · exact nofun
  · exact hwrong

/-- Settles O16, by induction on the length of the run: its first cycle keeps the fault (`step_goneWrong`). -/
theorem goneWrongStaysGoneWrong : Obligations.GoneWrongStaysGoneWrong := by
  intro k
  induction k with
  | zero =>
    intro s t hrun hwrong
    cases hrun
    exact hwrong
  | succ k ih =>
    intro s t hrun hwrong
    obtain ⟨u, hu⟩ := step_completes s
    rw [run_of_next hu] at hrun
    exact ih u t hrun (step_goneWrong hwrong hu)

end Sys2Proof.Machine
end

section
/-! SUPPORT. The delay timer as a count of cycles (70_reset_and_hazards.md R241): a run without `Fx15` takes one from `DT` each cycle. -/

namespace Sys2Proof.Machine

/-- A run that avoids every `Fx15` counts `DT` down by its length, floored at zero (R96). -/
theorem dt_of_runAvoids {bad : Instr → Bool} (hbad : ∀ x, bad (.ldDtVx x) = true) {k : Nat} {u t : State}
    (h : RunAvoids bad k u t) : t.dt.toNat = u.dt.toNat - k := by
  induction k generalizing u with
  | zero =>
    cases h
    rfl
  | succ k ih =>
    obtain ⟨havoids, u', hstep, hrest⟩ := h
    have hno (x : RegIdx) : u.nextInstr ≠ some (.ldDtVx x) := fun hi => nomatch (hbad x).symm.trans (havoids _ hi)
    obtain ⟨-, hticks, -⟩ := timersTickOncePerCycle u u' hstep
    calc t.dt.toNat
      _ = u'.dt.toNat - k := ih hrest
      _ = u.dt.toNat - 1 - k := by rw [hticks hno]
      _ = u.dt.toNat - (k + 1) := by omega

/-- Settles O21: the cycle that sets `DT` takes the first count, the run between takes `k` (`dt_of_runAvoids`), and `Fx07` reads before
its own tick. -/
theorem delayTimerReadsElapsedCycles : Obligations.DelayTimerReadsElapsedCycles := by
  intro k x y s u t w hset hfirst hrun hread hlast
  obtain ⟨hdtSet, -⟩ := timersTickOncePerCycle s u hfirst
  obtain ⟨-, -, -, -, hdtRead⟩ := timersTickOncePerCycle t w hlast
  calc (w.readV y).toNat
    _ = t.dt.toNat := by rw [hdtRead y hread]
    _ = u.dt.toNat - k := dt_of_runAvoids (fun _ => rfl) hrun
    _ = (s.readV x).toNat - 1 - k := by rw [hdtSet x hset]
    _ = (s.readV x).toNat - (k + 1) := by omega

end Sys2Proof.Machine
end

section
/-! SUPPORT. The ROM load and the first fetch after boot (70_reset_and_hazards.md R231 to R233): which images the load takes, what it
leaves in memory, and so what a booted machine holds from 0x200 up. -/

namespace Sys2Proof.Machine

/-! ### The load -/

theorem isEmpty_iff {image : List Byte} : RomImage.isEmpty image = true ↔ image.length = 0 := beq_iff_eq

/-- The largest legal image ends with the memory (R232). -/
theorem isOversized_iff {image : List Byte} : RomImage.isOversized image = true ↔ 3584 < image.length := by
  rw [RomImage.isOversized, decide_eq_true_iff, Config.memSize, Config.romStart]
  omega

/-- The load takes the legal sizes only, and is one store (R232, R233). -/
theorem romLoad_eq_ok_iff {image : List Byte} {s t : State} :
    romLoad image s = .ok t ↔ 0 < image.length ∧ image.length ≤ 3584 ∧ s.storeBytes 0x200 image = t := by
  unfold romLoad
  simp only [isEmpty_iff, isOversized_iff]
  split
  case isTrue hempty => simp [hempty]
  case isFalse hne =>
    have hpos : 0 < image.length := Nat.pos_of_ne_zero hne
    split
    case isTrue hover => simp [Nat.not_le.mpr hover]
    case isFalse hfits => simp [hpos, Nat.not_lt.mp hfits, Config.romStart]

theorem portAddr_of_lt {a : Nat} (h : a < 4096) : portAddr a = a := Nat.mod_eq_of_lt h

/-- Settles O56: the two size checks in their order, then one store from 0x200 up that ends inside memory, so that the port reduces no
address of it. -/
theorem romLoadCopiesTheImage : Obligations.RomLoadCopiesTheImage := by
  intro s image hinv
  refine ⟨fun hempty => ?empty, fun hover => ?oversized, fun hpos hfits => ?copied⟩
  case empty => rw [romLoad, if_pos (isEmpty_iff.mpr hempty)]
  case oversized =>
    have hne : ¬ RomImage.isEmpty image = true := fun h => by rw [isEmpty_iff] at h; omega
    rw [romLoad, if_neg hne, if_pos (isOversized_iff.mpr hover)]
  case copied =>
    obtain ⟨hframe, hkept⟩ := storeBytes_frame hinv 0x200 (bs := image) rfl
    refine ⟨_, romLoad_eq_ok_iff.mpr ⟨hpos, hfits, rfl⟩, hframe, fun j hj => ?_, fun a ha hout => hkept a fun k hk => ?_⟩
    · exact readByte_storeBytes_inside hinv (Nat.le_trans hfits (by decide)) hj rfl
    · rw [portAddr_of_lt ha, portAddr_of_lt (by omega)]
      omega

/-! ### Boot -/

/-- From 0x200 up a booted machine holds the image and behind it the zeros of reset, for every font and seed (R35, R233). -/
theorem readByte_boot {font : FontTable} {seed : Nat} {image : List Byte} {s : State} (h : boot font seed image = .ok s)
    {k : Nat} (hk : k < 3584) : s.readByte (0x200 + k) = image.getD k 0 := by
  obtain ⟨hpos, hfits, -⟩ := romLoad_eq_ok_iff.mp h
  obtain ⟨-, -, hload⟩ := romLoadCopiesTheImage (State.resetWith font seed) image (resetWith_wf font seed)
  obtain ⟨s', hs', -, hinside, houtside⟩ := hload hpos hfits
  cases hs'.symm.trans h
  by_cases hin : k < image.length
  · rw [hinside k hin, List.getD_eq_getElem _ _ hin]
  · obtain ⟨-, hzero, -⟩ := resetValuesOfTheSource font seed _ rfl
    rw [houtside _ (by omega) (by omega), hzero _ (by omega) (by omega), List.getD_eq_default _ _ (Nat.not_lt.mp hin)]

/-- Settles O57: the load leaves `PC` at its reset value 0x200, and the cycle fetches the two bytes there (`readByte_boot`). -/
theorem bootFetchesTheImage : Obligations.BootFetchesTheImage := by
  intro font seed image s t hboot hstep
  have hpc : s.pc = 0x0200 := by
    obtain ⟨-, -, rfl⟩ := romLoad_eq_ok_iff.mp hboot
    rfl
  refine ⟨hpc, ?_⟩
  calc t.ir
    _ = s.fetchWord := step_ir hstep
    _ = wordOfBytes (s.readByte (0x200 + 0)) (s.readByte (0x200 + 1)) := by rw [State.fetchWord, hpc]; rfl
    _ = wordOfBytes (image.getD 0 0) (image.getD 1 0) := by rw [readByte_boot hboot (by decide), readByte_boot hboot (by decide)]

end Sys2Proof.Machine
end
